-- ==== Sys2Proof/Word.lean ====
section
/-! DEFINITION. The word types of the machine (00_scope.md R4, R7): all values are unsigned, bit 0 is
the least significant bit. -/

namespace Sys2Proof

/-- An 8-bit value: a memory cell, a V register, a timer (R21, R27, R29). -/
abbrev Byte := BitVec 8

/-- A 12-bit address: a value of I, of PC or of a stack entry (R23, R24, R25). -/
abbrev Addr := BitVec 12

/-- A 16-bit instruction word (R80). -/
abbrev Word := BitVec 16

/-- The index of a V register, 0 to 15 (R21). -/
abbrev RegIdx := Fin 16

/-- The index of VF, which is `V[15]` and nothing else (R22). -/
abbrev vfIdx : RegIdx := 15

end Sys2Proof
end

