-- ==== Sys2Proof/Syntax.lean ====
section
/-! DEFINITION. The 22 instructions of 30_encoding.md R85, one constructor for each row of
spec/opcode_table.json, in the table's order. Operands are the decoded fields of R81. -/

namespace Sys2Proof

inductive Instr where
  /-- `1NNN`, `JP nnn` (R100). -/
  | jp (nnn : Addr)
  /-- `2NNN`, `CALL nnn` (R101). -/
  | call (nnn : Addr)
  /-- `00EE`, `RET` (R102). -/
  | ret
  /-- `3XNN`, `SE Vx, nn` (R103). -/
  | seImm (x : RegIdx) (nn : Byte)
  /-- `4XNN`, `SNE Vx, nn` (R104). -/
  | sneImm (x : RegIdx) (nn : Byte)
  /-- `5XY0`, `SE Vx, Vy` (R105). -/
  | seReg (x y : RegIdx)
  /-- `6XNN`, `LD Vx, nn` (R120). -/
  | ldImm (x : RegIdx) (nn : Byte)
  /-- `7XNN`, `ADD Vx, nn` (R121). -/
  | addImm (x : RegIdx) (nn : Byte)
  /-- `8XY0`, `LD Vx, Vy` (R122). -/
  | ldReg (x y : RegIdx)
  /-- `8XY1`, `OR Vx, Vy` (R123). -/
  | orReg (x y : RegIdx)
  /-- `8XY2`, `AND Vx, Vy` (R124). -/
  | andReg (x y : RegIdx)
  /-- `8XY3`, `XOR Vx, Vy` (R125). -/
  | xorReg (x y : RegIdx)
  /-- `8XY4`, `ADD Vx, Vy` (R126). -/
  | addReg (x y : RegIdx)
  /-- `8XY5`, `SUB Vx, Vy` (R127). -/
  | subReg (x y : RegIdx)
  /-- `ANNN`, `LD I, nnn` (R140). -/
  | ldI (nnn : Addr)
  /-- `BNNN`, `JP V0, nnn` (R106). -/
  | jpV0 (nnn : Addr)
  /-- `CXNN`, `RND Vx, nn` (R128). -/
  | rnd (x : RegIdx) (nn : Byte)
  /-- `DXYN`, `DRW Vx, Vy, n` (R160). -/
  | drw (x y : RegIdx) (n : BitVec 4)
  /-- `FX29`, `LD F, Vx` (R141). -/
  | ldF (x : RegIdx)
  /-- `FX33`, `LD B, Vx` (R142). -/
  | ldB (x : RegIdx)
  /-- `FX55`, `LD [I], Vx` (R143). -/
  | stRegs (x : RegIdx)
  /-- `FX65`, `LD Vx, [I]` (R144). -/
  | ldRegs (x : RegIdx)
  deriving DecidableEq, Repr

end Sys2Proof
end

