-- ==== Sys2Proof/Decode.lean ====
section
/-! DEFINITION. The decoder of 30_encoding.md R81 and R84, total on any bytes, and after it the encoder,
written from the same table (R85). -/

namespace Sys2Proof

/-- Why the decoder gives no instruction. -/
inductive DecodeReject where
  /-- Fewer than the two bytes of an instruction (R80). -/
  | truncated
  /-- The word is one of the illegal words of R86. -/
  | illegal (w : Word)
  deriving DecidableEq, Repr

/-- `op` = `w[15:12]` (R81). -/
def opField (w : Word) : BitVec 4 := w.extractLsb' 12 4
/-- `x` = `w[11:8]`, shifted down into 0 to 15 (R81). -/
def xField (w : Word) : RegIdx := (w.extractLsb' 8 4).toFin
/-- `y` = `w[7:4]`, shifted down into 0 to 15 (R81). -/
def yField (w : Word) : RegIdx := (w.extractLsb' 4 4).toFin
/-- `n` = `w[3:0]` (R81). -/
def nField (w : Word) : BitVec 4 := w.extractLsb' 0 4
/-- `nn` = `w[7:0]` (R81). -/
def nnField (w : Word) : Byte := w.extractLsb' 0 8
/-- `nnn` = `w[11:0]` (R81). -/
def nnnField (w : Word) : Addr := w.extractLsb' 0 12

/-- Family 8, whose secondary key is `n` (R84, C8). -/
def decodeFamily8 (w : Word) : Except DecodeReject Instr :=
  match nField w with
  | 0x0#4 => .ok (.ldReg (xField w) (yField w))
  | 0x1#4 => .ok (.orReg (xField w) (yField w))
  | 0x2#4 => .ok (.andReg (xField w) (yField w))
  | 0x3#4 => .ok (.xorReg (xField w) (yField w))
  | 0x4#4 => .ok (.addReg (xField w) (yField w))
  | 0x5#4 => .ok (.subReg (xField w) (yField w))
  | _ => .error (.illegal w)

/-- Family F, whose secondary key is `nn` (R84, C8). -/
def decodeFamilyF (w : Word) : Except DecodeReject Instr :=
  match nnField w with
  | 0x29#8 => .ok (.ldF (xField w))
  | 0x33#8 => .ok (.ldB (xField w))
  | 0x55#8 => .ok (.stRegs (xField w))
  | 0x65#8 => .ok (.ldRegs (xField w))
  | _ => .error (.illegal w)

/-- `decode` of R84: a pure function of the word (R89). Family 0 has the one word 0x00EE (D14) and
family 5 asks for `n` = 0 (D13) (log 14). -/
def decodeWord (w : Word) : Except DecodeReject Instr :=
  match opField w with
  | 0x0#4 => if w = 0x00EE#16 then .ok .ret else .error (.illegal w)
  | 0x1#4 => .ok (.jp (nnnField w))
  | 0x2#4 => .ok (.call (nnnField w))
  | 0x3#4 => .ok (.seImm (xField w) (nnField w))
  | 0x4#4 => .ok (.sneImm (xField w) (nnField w))
  | 0x5#4 => if nField w = 0x0#4 then .ok (.seReg (xField w) (yField w)) else .error (.illegal w)
  | 0x6#4 => .ok (.ldImm (xField w) (nnField w))
  | 0x7#4 => .ok (.addImm (xField w) (nnField w))
  | 0x8#4 => decodeFamily8 w
  | 0xA#4 => .ok (.ldI (nnnField w))
  | 0xB#4 => .ok (.jpV0 (nnnField w))
  | 0xC#4 => .ok (.rnd (xField w) (nnField w))
  | 0xD#4 => .ok (.drw (xField w) (yField w) (nField w))
  | 0xF#4 => decodeFamilyF w
  | _ => .error (.illegal w)

/-- Two consecutive bytes as a word, big-endian: the byte at the lower address is `w[15:8]` (R54, R55). -/
def wordOfBytes (hi lo : Byte) : Word := hi ++ lo

/-- Decoding from a list of bytes: the instruction and the bytes after it (R80: every instruction is two
bytes, high byte first). -/
def decodeBytes : List Byte → Except DecodeReject (Instr × List Byte)
  | hi :: lo :: rest => (decodeWord (wordOfBytes hi lo)).map (fun i => (i, rest))
  | _ => .error .truncated

/-- Format NNN of R83: `op ++ nnn`. -/
def wordNNN (op : BitVec 4) (nnn : Addr) : Word := op ++ nnn
/-- Format XNN of R83: `op ++ x ++ nn`. -/
def wordXNN (op : BitVec 4) (x : RegIdx) (nn : Byte) : Word := op ++ (BitVec.ofFin (w := 4) x) ++ nn
/-- Formats XY and XYN of R83: `op ++ x ++ y ++ n`. -/
def wordXYN (op : BitVec 4) (x y : RegIdx) (n : BitVec 4) : Word :=
  op ++ (BitVec.ofFin (w := 4) x) ++ (BitVec.ofFin (w := 4) y) ++ n

/-- The word of an instruction: the column `encoding` of spec/opcode_table.json (R83, R85). -/
def encode : Instr → Word
  | .jp nnn => wordNNN 0x1#4 nnn
  | .call nnn => wordNNN 0x2#4 nnn
  | .ret => 0x00EE#16
  | .seImm x nn => wordXNN 0x3#4 x nn
  | .sneImm x nn => wordXNN 0x4#4 x nn
  | .seReg x y => wordXYN 0x5#4 x y 0x0#4
  | .ldImm x nn => wordXNN 0x6#4 x nn
  | .addImm x nn => wordXNN 0x7#4 x nn
  | .ldReg x y => wordXYN 0x8#4 x y 0x0#4
  | .orReg x y => wordXYN 0x8#4 x y 0x1#4
  | .andReg x y => wordXYN 0x8#4 x y 0x2#4
  | .xorReg x y => wordXYN 0x8#4 x y 0x3#4
  | .addReg x y => wordXYN 0x8#4 x y 0x4#4
  | .subReg x y => wordXYN 0x8#4 x y 0x5#4
  | .ldI nnn => wordNNN 0xA#4 nnn
  | .jpV0 nnn => wordNNN 0xB#4 nnn
  | .rnd x nn => wordXNN 0xC#4 x nn
  | .drw x y n => wordXYN 0xD#4 x y n
  | .ldF x => wordXNN 0xF#4 x 0x29#8
  | .ldB x => wordXNN 0xF#4 x 0x33#8
  | .stRegs x => wordXNN 0xF#4 x 0x55#8
  | .ldRegs x => wordXNN 0xF#4 x 0x65#8

/-- The column `mask` of R85 for the row of an instruction. -/
def opcodeMask : Instr → Word
  | .jp _ => 0xF000#16
  | .call _ => 0xF000#16
  | .ret => 0xFFFF#16
  | .seImm _ _ => 0xF000#16
  | .sneImm _ _ => 0xF000#16
  | .seReg _ _ => 0xF00F#16
  | .ldImm _ _ => 0xF000#16
  | .addImm _ _ => 0xF000#16
  | .ldReg _ _ => 0xF00F#16
  | .orReg _ _ => 0xF00F#16
  | .andReg _ _ => 0xF00F#16
  | .xorReg _ _ => 0xF00F#16
  | .addReg _ _ => 0xF00F#16
  | .subReg _ _ => 0xF00F#16
  | .ldI _ => 0xF000#16
  | .jpV0 _ => 0xF000#16
  | .rnd _ _ => 0xF000#16
  | .drw _ _ _ => 0xF000#16
  | .ldF _ => 0xF0FF#16
  | .ldB _ => 0xF0FF#16
  | .stRegs _ => 0xF0FF#16
  | .ldRegs _ => 0xF0FF#16

/-- The column `match` of R85 for the row of an instruction. -/
def opcodeMatch : Instr → Word
  | .jp _ => 0x1000#16
  | .call _ => 0x2000#16
  | .ret => 0x00EE#16
  | .seImm _ _ => 0x3000#16
  | .sneImm _ _ => 0x4000#16
  | .seReg _ _ => 0x5000#16
  | .ldImm _ _ => 0x6000#16
  | .addImm _ _ => 0x7000#16
  | .ldReg _ _ => 0x8000#16
  | .orReg _ _ => 0x8001#16
  | .andReg _ _ => 0x8002#16
  | .xorReg _ _ => 0x8003#16
  | .addReg _ _ => 0x8004#16
  | .subReg _ _ => 0x8005#16
  | .ldI _ => 0xA000#16
  | .jpV0 _ => 0xB000#16
  | .rnd _ _ => 0xC000#16
  | .drw _ _ _ => 0xD000#16
  | .ldF _ => 0xF029#16
  | .ldB _ => 0xF033#16
  | .stRegs _ => 0xF055#16
  | .ldRegs _ => 0xF065#16

/-- The two bytes of a word as memory holds them, high byte first (R80). -/
def bytesOfWord (w : Word) : List Byte := [w.extractLsb' 8 8, w.extractLsb' 0 8]

/-- The bytes of an instruction. -/
def encodeBytes (i : Instr) : List Byte := bytesOfWord (encode i)

/-- The word whose low `nbits` bits are those of `w`, the bits above them 0. -/
def tableWord (nbits w : Nat) : Word := BitVec.ofNat 16 (w % 2 ^ nbits)

/-- The instruction this decoder reads from an instruction whose bits are `w`, numbered as
spec/opcode_table.json numbers them: its bytes are laid out as memory holds them and decoded. -/
def decodeTableWord (nbits w : Nat) : Option Instr :=
  match decodeBytes (bytesOfWord (tableWord nbits w)) with
  | .ok (i, _) => some i
  | .error _ => none

end Sys2Proof
end

