-- ==== Sys2Proof/Config.lean ====
section
/-! DEFINITION. What an implementation fixes (00_scope.md R5) and the free values. -/

namespace Sys2Proof

/-- The three parameters of R5, fixed for a run. A claim that holds for this hardware whatever its
parameters quantifies over this structure (logs 4, 5, 6). -/
structure Config where
  /-- `FONT_BASE`, the address of the font table. -/
  fontBase : Addr
  /-- `FONT_DATA`, glyph d at offsets 5d to 5d + 4. -/
  fontData : Vector Byte 80
  /-- `TIMER_DIVISOR`, cycles per timer decrement. -/
  timerDivisor : Nat
  deriving DecidableEq, Repr

/-- FREE VALUE (log 7): the byte the host supplies on `rnd` in a cycle for which `State.inputs` names
none (R32, R128: a draw under no law). Nothing can be proved of its values. -/
opaque Config.rndByte : Nat → Byte

/-- FREE VALUE (log 6): one less than the `TIMER_DIVISOR` of `State.reset`. R5 gives that parameter no
default and R6 only that it is at least 1. -/
opaque Config.openDivisorLessOne : Nat

end Sys2Proof
end

