-- ==== Sys2Proof/Machine/Font.lean ====
section
/-! DEFINITION. The default configuration: the column "default" of 00_scope.md R5 and the default font
table of 20_memory.md R52 (general knowledge G1, log 5). -/

namespace Sys2Proof.Machine

/-- The default `FONT_DATA` of R52, five bytes a digit. -/
def defaultFont : Vector Byte 80 := #v[
  0xF0, 0x90, 0x90, 0x90, 0xF0,  0x20, 0x60, 0x20, 0x20, 0x70,
  0xF0, 0x10, 0xF0, 0x80, 0xF0,  0xF0, 0x10, 0xF0, 0x10, 0xF0,
  0x90, 0x90, 0xF0, 0x10, 0x10,  0xF0, 0x80, 0xF0, 0x10, 0xF0,
  0xF0, 0x80, 0xF0, 0x90, 0xF0,  0xF0, 0x10, 0x20, 0x40, 0x40,
  0xF0, 0x90, 0xF0, 0x90, 0xF0,  0xF0, 0x90, 0xF0, 0x10, 0xF0,
  0xF0, 0x90, 0xF0, 0x90, 0x90,  0xE0, 0x90, 0xE0, 0x90, 0xE0,
  0xF0, 0x80, 0x80, 0x80, 0xF0,  0xE0, 0x90, 0x90, 0x90, 0xE0,
  0xF0, 0x80, 0xF0, 0x80, 0xF0,  0xF0, 0x80, 0xF0, 0x80, 0x80]

/-- The configuration of `State.reset`: R5's defaults, and for `TIMER_DIVISOR`, which has none, a value
at least 1 that no proof can see (log 6). -/
def defaultConfig : Config where
  fontBase := 0x000
  fontData := defaultFont
  timerDivisor := Config.openDivisorLessOne + 1

end Sys2Proof.Machine
end

