-- ==== Sys2Proof/Machine/State.lean ====
section
/-! DEFINITION. The state of the machine as plain data (10_state.md R20), the reasons a step can stop,
and the state after reset (R33). -/

namespace Sys2Proof.Machine

/-- The display: 32 rows (0 the top) of 64 one-bit pixels (column 0 the left), `true` on (R28). -/
abbrev Display := Vector (Vector Bool 64) 32

/-- The memory cells that differ from the reset content, as (address, byte), addresses strictly rising.
An unlisted address reads as `resetByte` (Machine/Ops.lean; log 1). -/
abbrev Memory := List Host.Cell

/-- The cause of a halt (60_exceptions.md R190). -/
inductive Cause where
  | decodeError
  | stackOverflow
  | stackUnderflow
  | invalidOperand
  | addressOutOfRange
  | externalStop
  deriving DecidableEq, Repr

/-- The halt record (R31): the outputs `halt_cause`, `halt_word`, `halt_pc`, `halt_info`. -/
structure HaltRecord where
  cause : Cause
  word : Word
  pc : Addr
  info : BitVec 13
  deriving DecidableEq, Repr

/-- The run state `Run` (R31). -/
inductive RunState where
  | running
  | halted (r : HaltRecord)
  deriving DecidableEq, Repr

/-- What the host supplies to one cycle (R32): the byte on `rnd` and the bit on `stop`. -/
structure CycleInput where
  rnd : Byte
  stop : Bool
  deriving DecidableEq, Repr

/-- The whole state: R20's record, then what `step` needs beside it (logs 4, 7, 8). -/
structure State where
  /-- `Mem` (R29). -/
  mem : Memory
  /-- `V`, V0 to VF (R21). -/
  v : Vector Byte 16
  /-- `I` (R23). -/
  i : Addr
  /-- `PC` (R24). During a cycle it holds `addr0` until the instruction writes it. -/
  pc : Addr
  /-- `Stack` (R25). -/
  stack : Vector Addr 16
  /-- `SP`, the number of return addresses held, 0 to 16 (R26). -/
  sp : Fin 17
  /-- `DT` (R27). -/
  dt : Byte
  /-- `ST` (R27). -/
  st : Byte
  /-- `Disp` (R28). -/
  disp : Display
  /-- `TickCount`, completed cycles since the last tick (R30). -/
  tickCount : Nat
  /-- `Run` (R31). -/
  run : RunState
  /-- The configuration, fixed for a run (R5, R20). No step changes it. -/
  cfg : Config
  /-- The model's own: the host's inputs to the coming cycles, the next cycle's first (R32). -/
  inputs : List CycleInput
  /-- The model's own: the index of the free `rnd` byte used when `inputs` is empty (log 7). -/
  draws : Nat
  deriving DecidableEq, Repr

/-- No step ends in a fault: every error of the machine is a transition to `Halted`, a next state
(R182, R199; log 9). No constructor, so nothing raises one; safe. -/
inductive Fault where
  deriving DecidableEq, Repr

/-- Why the model gives an instruction no meaning. -/
inductive Refusal where
  /-- An instruction whose arm in Machine/Dispatch.lean has no meaning yet raises it; safe (the model
  stops). No arm does: all 22 instructions are modelled. -/
  | notModelled (mnemonic : String)
  deriving DecidableEq, Repr

/-- The state after reset and before the ROM load, for a configuration (R33, R230). Memory lists nothing:
it reads as its reset content. The zeros of `v`, `i`, `dt`, `st`, `disp` and `tickCount` are the spec's
decisions D2, D3, D4, D9 (log 2); those of the dead `stack` entries are the model's (log 3). -/
def State.resetWith (cfg : Config) : State where
  mem := []
  v := Vector.replicate 16 0x00#8
  i := 0x000#12
  pc := 0x200#12
  stack := Vector.replicate 16 0x000#12
  sp := 0
  dt := 0x00#8
  st := 0x00#8
  disp := Vector.replicate 32 (Vector.replicate 64 false)
  tickCount := 0
  run := .running
  cfg := cfg
  inputs := []
  draws := 0

/-- The machine right after reset, with the default configuration of R5. -/
def State.reset : State := State.resetWith defaultConfig

end Sys2Proof.Machine
end

