-- ==== Sys2Proof/Machine/Ops.lean ====
section
/-! DEFINITION. The named operations over memory and registers, the taking of a fault and of a stop
request as one shared operation, and the tick. -/

namespace Sys2Proof.Machine

/-! ### Memory cells -/

/-- What an unlisted address reads as: the reset content of R33, the font byte inside the font table
(R52) and zero elsewhere (log 1). -/
def resetByte (c : Config) (a : Nat) : Byte :=
  if h : c.fontBase.toNat ≤ a ∧ a < c.fontBase.toNat + 80 then c.fontData[a - c.fontBase.toNat] else 0x00#8

/-- The listed byte at an address, if there is one. -/
def Memory.lookup : Memory → Nat → Option Byte
  | [], _ => none
  | (k, b) :: m, a => if k = a then some b else Memory.lookup m a

/-- The memory without an entry for the address. -/
def Memory.erase : Memory → Nat → Memory
  | [], _ => []
  | (k, b) :: m, a => if k = a then Memory.erase m a else (k, b) :: Memory.erase m a

/-- The memory with the entry (a, b), put in address order. -/
def Memory.insert : Memory → Nat → Byte → Memory
  | [], a, b => [(a, b)]
  | (k, c) :: m, a, b =>
    if a < k then (a, b) :: (k, c) :: m
    else if a = k then (a, b) :: m
    else (k, c) :: Memory.insert m a b

/-- `Mem[a]` (R29). -/
def Memory.read (c : Config) (m : Memory) (a : Nat) : Byte := (m.lookup a).getD (resetByte c a)

/-- `Mem[a] <- b`, keeping the canonical form: the byte an unlisted address reads as is not listed. -/
def Memory.write (c : Config) (m : Memory) (a : Nat) (b : Byte) : Memory :=
  if b = resetByte c a then m.erase a else m.insert a b

/-- The addresses of a memory, from the first, rise strictly from `lo` on and lie below 0x1000. -/
def Memory.risesFrom : Nat → Memory → Bool
  | _, [] => true
  | lo, (k, _) :: m => decide (lo ≤ k) && decide (k < 0x1000) && Memory.risesFrom (k + 1) m

/-- The canonical form: addresses strictly rising inside the 4096 cells of R50, and no entry equal to
what its address reads as unlisted. -/
def Memory.wf (c : Config) (m : Memory) : Bool :=
  Memory.risesFrom 0 m && m.all (fun e => decide (e.2 ≠ resetByte c e.1))

/-- `Mem[a]` in a state. -/
def State.readByte (s : State) (a : Nat) : Byte := s.mem.read s.cfg a

/-- `Mem[a] <- b` in a state. -/
def State.writeByte (s : State) (a : Nat) (b : Byte) : State := { s with mem := s.mem.write s.cfg a b }

/-- `MemRead(addr, 1)` of R53: the byte, or nothing where the address is above 0xFFF. -/
def State.memRead (s : State) (a : Nat) : Option Byte :=
  if a > 0xFFF then none else some (s.readByte a)

/-- `MemWrite(addr, 1, v)` of R53: the state written, or nothing where the address is above 0xFFF. -/
def State.memWrite (s : State) (a : Nat) (b : Byte) : Option State :=
  if a > 0xFFF then none else some (s.writeByte a b)

/-- `MemRead(addr, 2)` of R54, the instruction fetch: big-endian, never wrapped (D12). -/
def State.memRead2 (s : State) (a : Nat) : Option Word :=
  if a + 1 > 0xFFF then none else some (wordOfBytes (s.readByte a) (s.readByte (a + 1)))

/-! ### Registers -/

/-- `V[r]` (R21). -/
def State.getV (s : State) (r : RegIdx) : Byte := s.v[r.val]

/-- `V[r] <- b` (R21). -/
def State.setV (s : State) (r : RegIdx) (b : Byte) : State := { s with v := s.v.set r.val b }

/-- `I <- a` (R23). -/
def State.setI (s : State) (a : Addr) : State := { s with i := a }

/-- `PC <- a` (R24). -/
def State.setPC (s : State) (a : Addr) : State := { s with pc := a }

/-- `next` = (addr0 + 2) mod 4096 (R174; D11, log 12). -/
def State.nextPC (s : State) : Addr := s.pc + 2#12

/-- (addr0 + 4) mod 4096, where a taken skip goes (R24). -/
def State.skipPC (s : State) : Addr := s.pc + 4#12

/-- `PC <- next`, for an effect that leaves PC at `addr0`. -/
def State.advance (s : State) : State := s.setPC s.nextPC

/-- The pixel at (row, col) (R28). -/
def Display.pixel (d : Display) (row : Fin 32) (col : Fin 64) : Bool := (d[row.val])[col.val]

/-- `Disp[row][col] <- Disp[row][col] ^ 1` (R160). -/
def Display.flip (d : Display) (row : Fin 32) (col : Fin 64) : Display :=
  d.set row.val ((d[row.val]).set col.val (!d.pixel row col))

/-! ### The inputs of a cycle (R32; logs 7, 8) -/

/-- `rand8()`: the byte on `rnd` in this cycle. Where the host's inputs name none it is a free value. -/
def State.rndIn (s : State) : Byte :=
  match s.inputs with
  | inp :: _ => inp.rnd
  | [] => Config.rndByte s.draws

/-- The bit on `stop` in this cycle; 0 where the host's inputs name none. -/
def State.stopIn (s : State) : Bool :=
  match s.inputs with
  | inp :: _ => inp.stop
  | [] => false

/-- The inputs of the cycle are used up: the next cycle has the next ones. -/
def State.nextInputs (s : State) : State := { s with inputs := s.inputs.tail, draws := s.draws + 1 }

/-! ### Taking a fault or a stop request -/

/-- The code of a cause, the output `halt_cause` (R190; D27). -/
def Cause.code : Cause → BitVec 3
  | .decodeError => 1
  | .stackOverflow => 2
  | .stackUnderflow => 3
  | .invalidOperand => 4
  | .addressOutOfRange => 5
  | .externalStop => 6

/-- Entering `Halted` (R199): every write of the cycle is discarded, so it is applied to the state at the
start of the cycle; `Run` takes the record; PC stays at `addr0`, nothing is pushed, no handler runs. -/
def takeFault (c : Cause) (w : Word) (info : BitVec 13) (s : State) : State :=
  { s with run := .halted { cause := c, word := w, pc := s.pc, info := info } }

/-- `raise F(info)` inside an instruction: the cycle ends in `Halted`, a next state (R199; log 9). The
word is the instruction's own (log 10). -/
def raise (c : Cause) (info : BitVec 13) (i : Instr) (s : State) : Host.Outcome State Fault Refusal :=
  .next (takeFault c (encode i) info s)

/-- There is no return from a fault (R201): the only exit from `Halted` is reset (R230), which works from
every state. What the host will supply to later cycles is not the machine's and is kept (log 16). -/
def State.applyReset (s : State) : State :=
  { State.resetWith s.cfg with inputs := s.inputs, draws := s.draws }

/-! ### The tick -/

/-- `Tick()` of R208. -/
def State.tick (s : State) : State :=
  let due := s.tickCount + 1 = s.cfg.timerDivisor
  { s with
    tickCount := if due then 0 else s.tickCount + 1
    dt := if due ∧ s.dt ≠ 0x00#8 then s.dt - 1#8 else s.dt
    st := if due ∧ s.st ≠ 0x00#8 then s.st - 1#8 else s.st }

end Sys2Proof.Machine
end

