-- ==== Sys2Proof/Machine/Flags.lean ====
section
/-! DEFINITION. The three values written to VF as a flag (10_state.md R22), each 0 or 1. -/

namespace Sys2Proof.Machine

/-- A flag value. -/
def flagByte (b : Bool) : Byte := if b then 0x01#8 else 0x00#8

/-- `8XY4`: 1 when the unreduced sum exceeds 255 (R126, R129). -/
def carryFlag (a b : Byte) : Byte := flagByte (decide (a.toNat + b.toNat > 255))

/-- `8XY5`: 1 when no borrow occurred, `a >= b` (R127; D33). -/
def noBorrowFlag (a b : Byte) : Byte := flagByte (decide (b.toNat ≤ a.toNat))

/-- `DXYN`: 1 when some pixel went from 1 to 0 (R160). -/
def collisionFlag (hit : Bool) : Byte := flagByte hit

/-- `VF <- f`. -/
def State.setVF (s : State) (f : Byte) : State := s.setV vfIdx f

end Sys2Proof.Machine
end

