-- ==== Sys2Proof/Machine/Alu.lean ====
section
/-! DEFINITION. Register load, arithmetic, logic and random: `6XNN`, `7XNN`, `8XY0` to `8XY5`, `CXNN`
(41_alu.md). Unsigned 8-bit arithmetic, wrapping modulo 256 (R129); none can fault. -/

namespace Sys2Proof.Machine

/-- The common form: `V[x] <- b; PC <- next`, with no flag. -/
def State.loadV (s : State) (x : RegIdx) (b : Byte) : State := (s.setV x b).advance

/-- The common form of `8XY4` and `8XY5`: the flag first, then the result, in the order of the source's
row, so that with X = F the result stays (R126, R127; D16, log 15). -/
def State.loadFlagged (s : State) (x : RegIdx) (flag b : Byte) : State := ((s.setVF flag).setV x b).advance

/-- `6XNN` (R120). -/
def execLdImm (x : RegIdx) (nn : Byte) (s : State) : Host.Outcome State Fault Refusal :=
  .next (s.loadV x nn)

/-- `7XNN` (R121). -/
def execAddImm (x : RegIdx) (nn : Byte) (s : State) : Host.Outcome State Fault Refusal :=
  .next (s.loadV x (s.getV x + nn))

/-- `8XY0` (R122). -/
def execLdReg (x y : RegIdx) (s : State) : Host.Outcome State Fault Refusal :=
  .next (s.loadV x (s.getV y))

/-- `8XY1` (R123). -/
def execOrReg (x y : RegIdx) (s : State) : Host.Outcome State Fault Refusal :=
  .next (s.loadV x (s.getV x ||| s.getV y))

/-- `8XY2` (R124). -/
def execAndReg (x y : RegIdx) (s : State) : Host.Outcome State Fault Refusal :=
  .next (s.loadV x (s.getV x &&& s.getV y))

/-- `8XY3` (R125). -/
def execXorReg (x y : RegIdx) (s : State) : Host.Outcome State Fault Refusal :=
  .next (s.loadV x (s.getV x ^^^ s.getV y))

/-- `8XY4` (R126): both operands are read before any write. -/
def execAddReg (x y : RegIdx) (s : State) : Host.Outcome State Fault Refusal :=
  .next (s.loadFlagged x (carryFlag (s.getV x) (s.getV y)) (s.getV x + s.getV y))

/-- `8XY5` (R127): both operands are read before any write. -/
def execSubReg (x y : RegIdx) (s : State) : Host.Outcome State Fault Refusal :=
  .next (s.loadFlagged x (noBorrowFlag (s.getV x) (s.getV y)) (s.getV x - s.getV y))

/-- `CXNN` (R128): the `rnd` byte of this cycle, masked. -/
def execRnd (x : RegIdx) (nn : Byte) (s : State) : Host.Outcome State Fault Refusal :=
  .next (s.loadV x (s.rndIn &&& nn))

end Sys2Proof.Machine
end

