-- ==== Sys2Proof/Machine/Operands.lean ====
section
/-! DEFINITION. Operand forms. Immediates are used as they are, zero-extended (30_encoding.md R82); the
one data addressing mode is `I + k`, never reduced (42_index_memory.md R145, 20_memory.md R63). -/

namespace Sys2Proof.Machine

/-- The effective address of the k-th byte an instruction touches: `I + k` in natural numbers (R145). -/
def State.effAddr (s : State) (k : Nat) : Nat := s.i.toNat + k

/-- All of `count` consecutive bytes from I lie in the 4096 cells, that is the highest effective address
is at most 0xFFF; a block of no bytes always fits (R63, R145, D18). -/
def State.blockFits (s : State) (count : Nat) : Bool := decide (s.effAddr count ≤ 0x1000)

/-- The information recorded with `AddressOutOfRange`: the lowest offending address, always 0x1000
(R63, R190). -/
def outOfRangeInfo : BitVec 13 := 0x1000#13

/-- The register index k, for k up to 15. -/
def regAt (k : Nat) : RegIdx := Fin.ofNat 16 k

/-- `BNNN`'s target: `(V[0] + nnn) mod 4096`, V[0] zero-extended (R106). -/
def State.indexedTarget (s : State) (nnn : Addr) : Addr := (s.getV 0).setWidth 12 + nnn

/-- The address of the glyph of digit d: `FONT_BASE + 5 * d` (R141). -/
def State.glyphAddr (s : State) (d : Byte) : Addr := s.cfg.fontBase + BitVec.ofNat 12 (5 * d.toNat)

/-- `floor(v / 100)`, the hundreds digit (R142). -/
def hundredsDigit (v : Byte) : Byte := BitVec.ofNat 8 (v.toNat / 100)
/-- `floor(v / 10) mod 10`, the tens digit (R142). -/
def tensDigit (v : Byte) : Byte := BitVec.ofNat 8 (v.toNat / 10 % 10)
/-- `v mod 10`, the ones digit (R142). -/
def onesDigit (v : Byte) : Byte := BitVec.ofNat 8 (v.toNat % 10)

end Sys2Proof.Machine
end

