-- ==== Sys2Proof/Machine/Draw.lean ====
section
/-! DEFINITION. The sprite draw `DXYN` (43_draw.md R160; D17, D18, log 17): the two loops of the rule,
over the display and the collision seen so far. -/

namespace Sys2Proof.Machine

/-- The display while a sprite is drawn, and whether some pixel has gone from 1 to 0. -/
structure DrawState where
  disp : Display
  hit : Bool
  deriving DecidableEq, Repr

/-- `row <- (cy + r) mod 32`. -/
def spriteRow (cy r : Nat) : Fin 32 := Fin.ofNat 32 (cy + r)

/-- `col <- (cx + j) mod 64`. -/
def spriteCol (cx j : Nat) : Fin 64 := Fin.ofNat 64 (cx + j)

/-- `bit <- b[7 - j]`: bit 7 of the byte is the leftmost pixel. -/
def spriteBit (b : Byte) (j : Nat) : Bool := b.getLsbD (7 - j)

/-- One pixel of the sprite: a 1 bit XORs the display and collides with a 1 pixel. -/
def drawPixel (row : Fin 32) (col : Fin 64) (bit : Bool) (d : DrawState) : DrawState :=
  if bit then { disp := d.disp.flip row col, hit := d.hit || d.disp.pixel row col } else d

/-- The first `count` pixels of a sprite row, j ascending. -/
def drawPixels (b : Byte) (row : Fin 32) (cx : Nat) : Nat → DrawState → DrawState
  | 0, d => d
  | j + 1, d => drawPixel row (spriteCol cx j) (spriteBit b j) (drawPixels b row cx j d)

/-- The first `count` rows of the sprite at I, r ascending. -/
def drawRows (s : State) (cx cy : Nat) : Nat → DrawState → DrawState
  | 0, d => d
  | r + 1, d =>
    drawPixels (s.readByte (s.effAddr r)) (spriteRow cy r) cx 8 (drawRows s cx cy r d)

/-- `cx <- V[x] mod 64`. -/
def State.spriteX (s : State) (x : RegIdx) : Nat := (s.getV x).toNat % 64

/-- `cy <- V[y] mod 32`. -/
def State.spriteY (s : State) (y : RegIdx) : Nat := (s.getV y).toNat % 32

/-- The whole sprite drawn onto the display of `s`. The position is read before VF is written. -/
def State.drawSprite (s : State) (x y : RegIdx) (n : BitVec 4) : DrawState :=
  drawRows s (s.spriteX x) (s.spriteY y) n.toNat { disp := s.disp, hit := false }

/-- The display and VF after a draw. -/
def State.setDrawn (s : State) (d : DrawState) : State :=
  ({ s with disp := d.disp } : State).setVF (collisionFlag d.hit)

/-- `DXYN` (R160). -/
def execDrw (x y : RegIdx) (n : BitVec 4) (s : State) : Host.Outcome State Fault Refusal :=
  if s.blockFits n.toNat then .next (s.setDrawn (s.drawSprite x y n)).advance
  else raise .addressOutOfRange outOfRangeInfo (.drw x y n) s

end Sys2Proof.Machine
end

