-- ==== Sys2Proof/Machine/Flow.lean ====
section
/-! DEFINITION. Control transfer: `1NNN`, `2NNN`, `00EE`, `3XNN`, `4XNN`, `5XY0`, `BNNN` (40_flow.md).
Each writes PC and nothing else, but for the stack of `2NNN` and `00EE` (R107). -/

namespace Sys2Proof.Machine

/-- `1NNN` (R100). -/
def execJp (nnn : Addr) (s : State) : Host.Outcome State Fault Refusal := .next (s.setPC nnn)

/-- Push the call's own address: `Stack[SP] <- addr0; SP <- SP + 1`, for SP below 16 (R101, R26). -/
def State.push (s : State) (h : s.sp.val < 16) : State :=
  { s with stack := s.stack.set s.sp.val s.pc, sp := ⟨s.sp.val + 1, by omega⟩ }

/-- `2NNN` (R101). -/
def execCall (nnn : Addr) (s : State) : Host.Outcome State Fault Refusal :=
  if h : s.sp.val < 16 then .next ((s.push h).setPC nnn) else raise .stackOverflow 16#13 (.call nnn) s

/-- `00EE` (R102, C2): SP - 1, then PC is the entry last pushed plus 2. The entry stays (R25). -/
def execRet (s : State) : Host.Outcome State Fault Refusal :=
  if h : s.sp.val = 0 then raise .stackUnderflow 0#13 .ret s
  else .next { s with
    sp := ⟨s.sp.val - 1, by omega⟩
    pc := s.stack[s.sp.val - 1] + 2#12 }

/-- The common form of the skips: PC goes 4 on when the condition holds, else 2 (R103). -/
def State.skipIf (s : State) (c : Bool) : State := s.setPC (if c then s.skipPC else s.nextPC)

/-- `3XNN` (R103). -/
def execSeImm (x : RegIdx) (nn : Byte) (s : State) : Host.Outcome State Fault Refusal :=
  .next (s.skipIf (s.getV x == nn))

/-- `4XNN` (R104). -/
def execSneImm (x : RegIdx) (nn : Byte) (s : State) : Host.Outcome State Fault Refusal :=
  .next (s.skipIf (s.getV x != nn))

/-- `5XY0` (R105). -/
def execSeReg (x y : RegIdx) (s : State) : Host.Outcome State Fault Refusal :=
  .next (s.skipIf (s.getV x == s.getV y))

/-- `BNNN` (R106). -/
def execJpV0 (nnn : Addr) (s : State) : Host.Outcome State Fault Refusal :=
  .next (s.setPC (s.indexedTarget nnn))

end Sys2Proof.Machine
end

