-- ==== Sys2Proof/Machine/IndexMemory.lean ====
section
/-! DEFINITION. The index register and the memory instructions: `ANNN`, `FX29`, `FX33`, `FX55`, `FX65`
(42_index_memory.md). I is never changed by an access (R145; D19). -/

namespace Sys2Proof.Machine

/-- `ANNN` (R140). -/
def execLdI (nnn : Addr) (s : State) : Host.Outcome State Fault Refusal := .next (s.setI nnn).advance

/-- `FX29` (R141): the whole register is tested. -/
def execLdF (x : RegIdx) (s : State) : Host.Outcome State Fault Refusal :=
  if (s.getV x).toNat > 0xF then raise .invalidOperand ((s.getV x).setWidth 13) (.ldF x) s
  else .next (s.setI (s.glyphAddr (s.getV x))).advance

/-- The three digits of `b` at I, I + 1, I + 2 (R142). -/
def State.storeDigits (s : State) (b : Byte) : State :=
  ((s.writeByte (s.effAddr 0) (hundredsDigit b)).writeByte (s.effAddr 1) (tensDigit b)).writeByte
    (s.effAddr 2) (onesDigit b)

/-- `FX33` (R142). -/
def execLdB (x : RegIdx) (s : State) : Host.Outcome State Fault Refusal :=
  if s.blockFits 3 then .next (s.storeDigits (s.getV x)).advance
  else raise .addressOutOfRange outOfRangeInfo (.ldB x) s

/-- `Mem[I + i] <- V[i]` for i from 0 below `count`, ascending (R143). -/
def State.storeBlock (s : State) : Nat → State
  | 0 => s
  | k + 1 => (s.storeBlock k).writeByte (s.effAddr k) (s.getV (regAt k))

/-- `FX55` (R143): x + 1 registers, V[0] to V[x]. -/
def execStRegs (x : RegIdx) (s : State) : Host.Outcome State Fault Refusal :=
  if s.blockFits (x.val + 1) then .next (s.storeBlock (x.val + 1)).advance
  else raise .addressOutOfRange outOfRangeInfo (.stRegs x) s

/-- `V[i] <- Mem[I + i]` for i from 0 below `count`, ascending (R144). -/
def State.loadBlock (s : State) : Nat → State
  | 0 => s
  | k + 1 => (s.loadBlock k).setV (regAt k) (s.readByte (s.effAddr k))

/-- `FX65` (R144): x + 1 registers, V[0] to V[x]. -/
def execLdRegs (x : RegIdx) (s : State) : Host.Outcome State Fault Refusal :=
  if s.blockFits (x.val + 1) then .next (s.loadBlock (x.val + 1)).advance
  else raise .addressOutOfRange outOfRangeInfo (.ldRegs x) s

end Sys2Proof.Machine
end

