-- ==== Sys2Proof/Machine/Cycle.lean ====
section
/-! DEFINITION. One cycle of the core (50_execution_loop.md R171) and the placing of a word where it is
fetched. -/

namespace Sys2Proof.Machine

/-- The fetch of a cycle: `MemRead(addr0, 2)` (R172). -/
def State.fetch (s : State) : Option Word := s.memRead2 s.pc.toNat

/-- Step 6 of R171: a cycle whose instruction completed ticks; one whose instruction faulted does not
(R175, R176). -/
def finishCycle : Host.Outcome State Fault Refusal → Host.Outcome State Fault Refusal
  | .next t =>
    match t.run with
    | .running => .next t.tick
    | .halted _ => .next t
  | .fault f => .fault f
  | .refused r => .refused r

/-- Steps 4 to 6 of R171 for a fetched word. -/
def runWord (w : Word) (s : State) : Host.Outcome State Fault Refusal :=
  match decodeWord w with
  | .ok i => finishCycle (exec i s)
  | .error _ => .next (takeFault .decodeError w 0#13 s)

/-- Steps 2 to 6 of R171, in the priority of R198: stop, fetch, decode, execute. A stop request executes
no instruction (R178). -/
def runningCycle (s : State) : Host.Outcome State Fault Refusal :=
  if s.stopIn then .next (takeFault .externalStop 0#16 0#13 s)
  else
    match s.fetch with
    | none => .next (takeFault .addressOutOfRange 0#16 0x1000#13 s)
    | some w => runWord w s

/-- However a running core's cycle ends, the host's inputs to it are used up (the model's own fields;
log 7). -/
def useInputs : Host.Outcome State Fault Refusal → Host.Outcome State Fault Refusal
  | .next t => .next t.nextInputs
  | .fault f => .fault f
  | .refused r => .refused r

/-- `Cycle(rnd, stop)` of R171: a halted core does nothing (R177). -/
def runCycle (s : State) : Host.Outcome State Fault Refusal :=
  match s.run with
  | .halted _ => .next s
  | .running => useInputs (runningCycle s)

/-- The state with a word stored at PC and PC + 1, high byte first, made ready to fetch it: running, no
stop request in this cycle, and PC at the entry point 0x200 where 0xFFF could not be fetched (log 18). -/
def State.placeWord (s : State) (w : Word) : State :=
  let at0 : Addr := if s.pc = 0xFFF#12 then 0x200#12 else s.pc
  let t := (s.writeByte at0.toNat (w.extractLsb' 8 8)).writeByte (at0.toNat + 1) (w.extractLsb' 0 8)
  { t with
    pc := at0
    run := .running
    inputs := match s.inputs with
      | [] => []
      | inp :: rest => { inp with stop := false } :: rest }

end Sys2Proof.Machine
end

