-- ==== Sys2Proof/Machine/Step.lean ====
section
/-! DEFINITION. The step: one activation of the `step` port (50_execution_loop.md R171, R182). -/

namespace Sys2Proof.Machine

/-- One cycle. Its inputs `rnd` and `stop` are read from the state (logs 7, 8). -/
def step (s : State) : Host.Outcome State Fault Refusal := runCycle s

/-- `s` with the instruction whose bits are `w` (numbered as spec/opcode_table.json numbers them) stored
where `step` fetches its next instruction (log 18). -/
def State.withFetchWord (s : State) (nbits w : Nat) : State := s.placeWord (tableWord nbits w)

end Sys2Proof.Machine
end

