-- ==== Sys2Proof/Machine/Ports.lean ====
section
/-! DEFINITION. The ports of 50_execution_loop.md R170 other than `step`: reset, the ROM load and the
outputs. The host's moves between cycles (70_reset_and_hazards.md R230 to R232, R238). -/

namespace Sys2Proof.Machine

/-- One activation of the ROM-load port: a byte to 0x200 to 0xFFF; nothing else may be written
(R170, R231). That it comes after reset and before the first step is the host's duty (R238; log 16). -/
def State.romWrite (s : State) (a : Nat) (b : Byte) : Option State :=
  if 0x200 ≤ a ∧ a ≤ 0xFFF then some (s.writeByte a b) else none

/-- The bytes of a ROM image stored from address `a` upward. -/
def State.storeBytes (s : State) : Nat → List Byte → State
  | _, [] => s
  | a, b :: bs => (s.writeByte a b).storeBytes (a + 1) bs

/-- The ROM load of R231: `Mem[0x200 + i] <- ROM[i]`. An image longer than 3584 bytes is refused by the
host and starts nothing (D24). -/
def State.romLoad (s : State) (rom : List Byte) : Option State :=
  if rom.length ≤ 3584 then some (s.storeBytes 0x200 rom) else none

/-- `Launch(cfg, ROM)` of R232, with the inputs the host will supply. -/
def launch (cfg : Config) (rom : List Byte) (inputs : List CycleInput) : Option State :=
  ({ State.resetWith cfg with inputs := inputs } : State).romLoad rom

/-- `disp`: the pixel at the flat index `row*64 + col` (R162, R170). -/
def State.dispOut (s : State) (k : Fin 2048) : Bool :=
  s.disp.pixel ⟨k.val / 64, by omega⟩ ⟨k.val % 64, by omega⟩

/-- `sound_on`: the level ST != 0 (R210). -/
def State.soundOn (s : State) : Bool := s.st != 0x00#8

/-- `halted`: Run is Halted (R170). -/
def State.haltedOut (s : State) : Bool :=
  match s.run with
  | .running => false
  | .halted _ => true

/-- The halt record while `halted` = 1: `halt_cause`, `halt_word`, `halt_pc`, `halt_info` (R170). -/
def State.haltRecordOut (s : State) : Option (BitVec 3 × Word × Addr × BitVec 13) :=
  match s.run with
  | .running => none
  | .halted r => some (r.cause.code, r.word, r.pc, r.info)

/-- `dbg`: every register and memory cell between cycles, read only (R170, R36). -/
def State.dbgOut (s : State) : State := s

end Sys2Proof.Machine
end

