-- ==== Sys2Proof/WellFormed.lean ====
section
/-! DEFINITION. Well-formed terms. The operand types of `Instr` are exactly the field ranges of R81
(a register index below 16, an 8-bit, a 12-bit, a 4-bit immediate), so an ill-formed instruction cannot
be written and no check on `Instr` is left to make. What R6 asks of a configuration is a check. -/

namespace Sys2Proof

/-- R6: `0 <= FONT_BASE <= 0x1B0`. -/
def Config.fontBaseOk (c : Config) : Bool := c.fontBase.toNat ≤ 0x1B0

/-- R6: `TIMER_DIVISOR >= 1`. -/
def Config.timerDivisorOk (c : Config) : Bool := 1 ≤ c.timerDivisor

/-- R6: a configuration is well-formed. (That `FONT_DATA` has exactly 80 bytes is its type.) -/
def Config.wellFormed (c : Config) : Bool := c.fontBaseOk && c.timerDivisorOk

/-- R6: the divisor a host derives from a clock speed in instructions per second. No rule reads the
clock speed. -/
def Config.divisorOfClock (clockSpeed : Nat) : Nat := max 1 (clockSpeed / 60)

end Sys2Proof
end

