-- ==== Sys2Proof/Safety.lean ====
section
/-! DEFINITION. The terms in which claims are stated: the invariant of the machine, the states a run
reaches, what a transition leaves unchanged, and the spec's tables of illegal words and of writers. -/

namespace Sys2Proof.Machine

/-- 10_state.md R34, as far as the types of `State` leave it open: the configuration is well-formed (R6),
memory has its canonical form inside the 4096 cells, and `0 <= TickCount < TIMER_DIVISOR`. -/
structure State.Inv (s : State) : Prop where
  cfg_ok : s.cfg.wellFormed = true
  mem_wf : Memory.wf s.cfg s.mem = true
  tick_lt : s.tickCount < s.cfg.timerDivisor

/-- The states of a run (50_execution_loop.md R181, 70_reset_and_hazards.md R232, R230): a launch, then
cycles, with resets and new ROM loads between them, for any well-formed configuration. -/
inductive Reachable : State → Prop where
  | launched (cfg : Config) (rom : List Byte) (inputs : List CycleInput) (s : State)
      (ok : cfg.wellFormed = true) (h : launch cfg rom inputs = some s) : Reachable s
  | stepped (s t : State) (hs : Reachable s) (h : step s = .next t) : Reachable t
  | reset (s t : State) (rom : List Byte) (hs : Reachable s) (h : s.applyReset.romLoad rom = some t) :
      Reachable t

/-! ### Frames -/

/-- Every V register but those listed holds what it held. -/
def KeepsV (written : List RegIdx) (s t : State) : Prop := ∀ r, r ∉ written → t.getV r = s.getV r

/-- Every byte of memory reads as it read. -/
def KeepsMem (s t : State) : Prop := ∀ a, t.readByte a = s.readByte a

/-- Every byte of memory outside the `n` bytes from `lo` reads as it read. -/
def KeepsMemOutside (lo n : Nat) (s t : State) : Prop :=
  ∀ a, a < lo ∨ lo + n ≤ a → t.readByte a = s.readByte a

/-- The return stack and SP are unchanged. -/
def KeepsStack (s t : State) : Prop := t.stack = s.stack ∧ t.sp = s.sp

/-- What no completing instruction writes: the timers and their divider, Run, the configuration, and the
model's own input fields. -/
def KeepsRest (s t : State) : Prop :=
  t.dt = s.dt ∧ t.st = s.st ∧ t.tickCount = s.tickCount ∧ t.run = s.run ∧ t.cfg = s.cfg ∧
    t.inputs = s.inputs ∧ t.draws = s.draws

/-- An instruction that writes PC and, of the rest, at most the listed V registers. -/
def OnlyPcAndV (written : List RegIdx) (s t : State) : Prop :=
  KeepsV written s t ∧ KeepsMem s t ∧ t.i = s.i ∧ KeepsStack s t ∧ t.disp = s.disp ∧ KeepsRest s t

/-- PC moved past the instruction: `next` = (addr0 + 2) mod 4096 (R174). -/
def PcIsNext (s t : State) : Prop := t.pc.toNat = (s.pc.toNat + 2) % 4096

/-- The state that `s` becomes when it halts with this cause, word and information (R199): every field
but Run as before, and the record's pc the pc of `s`. -/
def haltedWith (c : Cause) (w : Word) (info : BitVec 13) (s : State) : State :=
  { s with run := .halted { cause := c, word := w, pc := s.pc, info := info } }

/-! ### The spec's tables -/

/-- The illegal words, row by row of the table of R86. -/
def IllegalWord (w : Word) : Prop :=
  (w.toNat ≤ 0x0FFF ∧ w ≠ 0x00EE#16) ∨
  (0x5000 ≤ w.toNat ∧ w.toNat ≤ 0x5FFF ∧ w.toNat % 16 ≠ 0) ∨
  (0x8000 ≤ w.toNat ∧ w.toNat ≤ 0x8FFF ∧ 6 ≤ w.toNat % 16) ∨
  (0x9000 ≤ w.toNat ∧ w.toNat ≤ 0x9FFF) ∨
  (0xE000 ≤ w.toNat ∧ w.toNat ≤ 0xEFFF) ∨
  (0xF000 ≤ w.toNat ∧ w.toNat % 256 ≠ 0x29 ∧ w.toNat % 256 ≠ 0x33 ∧ w.toNat % 256 ≠ 0x55 ∧
    w.toNat % 256 ≠ 0x65)

/-- The V registers an instruction writes: the column "writes" of R35. -/
def writesV : Instr → RegIdx → Prop
  | .jp _, _ => False
  | .call _, _ => False
  | .ret, _ => False
  | .seImm _ _, _ => False
  | .sneImm _ _, _ => False
  | .seReg _ _, _ => False
  | .ldImm x _, r => r = x
  | .addImm x _, r => r = x
  | .ldReg x _, r => r = x
  | .orReg x _, r => r = x
  | .andReg x _, r => r = x
  | .xorReg x _, r => r = x
  | .addReg x _, r => r = vfIdx ∨ r = x
  | .subReg x _, r => r = vfIdx ∨ r = x
  | .ldI _, _ => False
  | .jpV0 _, _ => False
  | .rnd x _, r => r = x
  | .drw _ _ _, r => r = vfIdx
  | .ldF _, _ => False
  | .ldB _, _ => False
  | .stRegs _, _ => False
  | .ldRegs x, r => r.val ≤ x.val

/-- The instructions of 40_flow.md, whose PC write is not `next` alone (R107). -/
def isFlow : Instr → Prop
  | .jp _ => True
  | .call _ => True
  | .ret => True
  | .seImm _ _ => True
  | .sneImm _ _ => True
  | .seReg _ _ => True
  | .ldImm _ _ => False
  | .addImm _ _ => False
  | .ldReg _ _ => False
  | .orReg _ _ => False
  | .andReg _ _ => False
  | .xorReg _ _ => False
  | .addReg _ _ => False
  | .subReg _ _ => False
  | .ldI _ => False
  | .jpV0 _ => True
  | .rnd _ _ => False
  | .drw _ _ _ => False
  | .ldF _ => False
  | .ldB _ => False
  | .stRegs _ => False
  | .ldRegs _ => False

/-- Pixel (row, col) is covered by a 1 bit of the n-row sprite at I drawn at (V[x] mod 64, V[y] mod 32),
with each pixel wrapped (R160). -/
def SpritePixel (s : State) (x y : RegIdx) (n : BitVec 4) (row : Fin 32) (col : Fin 64) : Prop :=
  ∃ r j : Nat, r < n.toNat ∧ j < 8 ∧ row.val = ((s.getV y).toNat % 32 + r) % 32 ∧
    col.val = ((s.getV x).toNat % 64 + j) % 64 ∧ (s.readByte (s.i.toNat + r)).getLsbD (7 - j) = true

/-- The byte at an address once `FX33` has stored the digits of V[x] at I, I + 1, I + 2 (R142): the byte
that was there, outside those three. -/
def byteAfterDigits (s : State) (x : RegIdx) (a : Nat) : Byte :=
  if a = s.effAddr 0 then BitVec.ofNat 8 ((s.getV x).toNat / 100)
  else if a = s.effAddr 1 then BitVec.ofNat 8 ((s.getV x).toNat / 10 % 10)
  else if a = s.effAddr 2 then BitVec.ofNat 8 ((s.getV x).toNat % 10)
  else s.readByte a

/-- The byte at an address once `FX55` has stored V[0] to V[x] at I to I + x (R143): the byte that was
there, outside those. -/
def byteAfterBlock (s : State) (x : RegIdx) (a : Nat) : Byte :=
  if s.effAddr 0 ≤ a ∧ a ≤ s.effAddr x.val then s.getV (regAt (a - s.effAddr 0)) else s.readByte a

/-- Two states that differ at most in dead stack entries, those at index >= SP (R25). -/
def AgreeButDead (s t : State) : Prop :=
  t = { s with stack := t.stack } ∧ ∀ k : Fin 16, k.val < s.sp.val → t.stack[k.val] = s.stack[k.val]

end Sys2Proof.Machine
end

