-- ==== Sys2Proof/Certificates/Slice0/Obligations.lean ====
section
/-! DEFINITION. The statements for the provers, from the numbered rules of spec/. Each docstring names
its rule and, where a clause rests on a decision or inference the spec marks as its own, or on a choice of
the model, the decision and the log entry. -/

open Sys2Proof Sys2Proof.Machine

/-! ### Encoding (30_encoding.md) -/

/-- R80, R81, R83, R85: decoding an instruction's own bytes, whatever follows them, gives it back with
every operand, and leaves what follows. -/
def Obligations.DecodeEncodeRoundTrip : Prop :=
  ∀ (i : Instr) (rest : List Byte), decodeBytes (encodeBytes i ++ rest) = .ok (i, rest)

/-- R87 (derived): every bit of a legal word is a literal or part of a used field, so encoding what was
decoded gives the word back. -/
def Obligations.EncodeDecodeRoundTrip : Prop :=
  ∀ (w : Word) (i : Instr), decodeWord w = .ok i → encode i = w

/-- R86: the decoder rejects exactly the words of R86's table, and rejects them as illegal words. That
`5XYn` with n != 0 and family 0 but 0x00EE are illegal is the spec's decision (D13, D14, D15; log 14). -/
def Obligations.IllegalWordsAreTheTable : Prop :=
  ∀ w : Word, (decodeWord w = .error (.illegal w) ↔ IllegalWord w) ∧
    ((∃ i, decodeWord w = .ok i) ↔ ¬ IllegalWord w)

/-- R85: a word is the instruction of a row exactly when `w & mask == match`, and no two rows overlap. -/
def Obligations.RowsMatchByMask : Prop :=
  ∀ (w : Word) (row : Instr),
    w &&& opcodeMask row = opcodeMatch row ↔
      ∃ i, decodeWord w = .ok i ∧ opcodeMask i = opcodeMask row ∧ opcodeMatch i = opcodeMatch row

/-- R85: a word of each family that has a legal word (0 to 8, A to D, F), written out from the table,
decodes to the instruction it stands for; 0x5121 and 0x0000 are rejected (D13, D14; log 14). -/
def Obligations.SampleWordsDecode : Prop :=
  decodeWord 0x1ABC#16 = .ok (.jp 0xABC#12) ∧ decodeWord 0x2456#16 = .ok (.call 0x456#12) ∧
  decodeWord 0x00EE#16 = .ok .ret ∧ decodeWord 0x332A#16 = .ok (.seImm 3 0x2A#8) ∧
  decodeWord 0x4301#16 = .ok (.sneImm 3 0x01#8) ∧ decodeWord 0x5120#16 = .ok (.seReg 1 2) ∧
  decodeWord 0x6A37#16 = .ok (.ldImm 10 0x37#8) ∧ decodeWord 0x730A#16 = .ok (.addImm 3 0x0A#8) ∧
  decodeWord 0x8AB5#16 = .ok (.subReg 10 11) ∧ decodeWord 0xA2F0#16 = .ok (.ldI 0x2F0#12) ∧
  decodeWord 0xB204#16 = .ok (.jpV0 0x204#12) ∧ decodeWord 0xC30F#16 = .ok (.rnd 3 0x0F#8) ∧
  decodeWord 0xD12F#16 = .ok (.drw 1 2 0xF#4) ∧ decodeWord 0xF265#16 = .ok (.ldRegs 2) ∧
  decodeWord 0x5121#16 = .error (.illegal 0x5121#16) ∧ decodeWord 0x0000#16 = .error (.illegal 0x0000#16)

/-! ### Control transfer (40_flow.md) -/

/-- R100, `1NNN`: PC <- nnn, always; nothing else changes. -/
def Obligations.JumpSetsPc : Prop :=
  ∀ (nnn : Addr) (s : State), (encode (.jp nnn)).toNat = 0x1000 + nnn.toNat ∧
    ∃ t, exec (.jp nnn) s = .next t ∧ t.pc = nnn ∧ OnlyPcAndV [] s t

/-- R101, `2NNN`: with SP below 16 it pushes its own address and jumps; with SP = 16 it halts with
StackOverflow, and no stack entry, register or byte is written. -/
def Obligations.CallPushesItsAddress : Prop :=
  ∀ (nnn : Addr) (s : State), (encode (.call nnn)).toNat = 0x2000 + nnn.toNat ∧
    (s.sp.val ≠ 16 → ∃ t, exec (.call nnn) s = .next t ∧ t.pc = nnn ∧ t.sp.val = s.sp.val + 1 ∧
      (∀ k : Fin 16, t.stack[k.val] = if k.val = s.sp.val then s.pc else s.stack[k.val]) ∧
      KeepsV [] s t ∧ KeepsMem s t ∧ t.i = s.i ∧ t.disp = s.disp ∧ KeepsRest s t) ∧
    (s.sp.val = 16 → ∃ r, exec (.call nnn) s = .next { s with run := .halted r } ∧
      r.cause = .stackOverflow)

/-- R102, `00EE`: with SP above 0 it goes to the entry last pushed plus 2 (modulo 4096) and keeps the
stack's entries; with SP = 0 it halts with StackUnderflow and writes nothing. The reduction
modulo 4096 is the spec's decision (D11; log 12), that a pop keeps its entry D5 (log 3). -/
def Obligations.ReturnGoesPastCall : Prop :=
  ∀ s : State, encode .ret = 0x00EE#16 ∧
    (s.sp.val ≠ 0 → ∃ t, exec .ret s = .next t ∧ t.sp.val + 1 = s.sp.val ∧
      (∀ k : Fin 16, k.val = t.sp.val → t.pc.toNat = (s.stack[k.val].toNat + 2) % 4096) ∧
      t.stack = s.stack ∧ KeepsV [] s t ∧ KeepsMem s t ∧ t.i = s.i ∧ t.disp = s.disp ∧ KeepsRest s t) ∧
    (s.sp.val = 0 → ∃ r, exec .ret s = .next { s with run := .halted r } ∧ r.cause = .stackUnderflow)

/-- R101, R102 and the source's property S8: a call and then a return end at the instruction after the
call, at the old stack depth. The reduction modulo 4096 is the spec's decision (D11; log 12). -/
def Obligations.CallThenReturnResumes : Prop :=
  ∀ (nnn : Addr) (s : State), s.sp.val ≠ 16 → ∃ t u, exec (.call nnn) s = .next t ∧
    exec .ret t = .next u ∧ PcIsNext s u ∧ u.sp = s.sp ∧ KeepsV [] s u ∧ KeepsMem s u

/-- R103, `3XNN`: PC goes 4 on when V[x] = nn and 2 on when not (modulo 4096); nothing else
changes. The reduction modulo 4096 is the spec's decision (D11; log 12). -/
def Obligations.SkipIfEqualImmediate : Prop :=
  ∀ (x : RegIdx) (nn : Byte) (s : State),
    (encode (.seImm x nn)).toNat = 0x3000 + x.val * 256 + nn.toNat ∧
    ∃ t, exec (.seImm x nn) s = .next t ∧ OnlyPcAndV [] s t ∧
      (s.getV x = nn → t.pc.toNat = (s.pc.toNat + 4) % 4096) ∧ (s.getV x ≠ nn → PcIsNext s t)

/-- R104, `4XNN`: PC goes 4 on when V[x] differs from nn and 2 on when not; nothing else changes.
The reduction modulo 4096 is the spec's decision (D11; log 12). -/
def Obligations.SkipIfDiffersImmediate : Prop :=
  ∀ (x : RegIdx) (nn : Byte) (s : State),
    (encode (.sneImm x nn)).toNat = 0x4000 + x.val * 256 + nn.toNat ∧
    ∃ t, exec (.sneImm x nn) s = .next t ∧ OnlyPcAndV [] s t ∧
      (s.getV x ≠ nn → t.pc.toNat = (s.pc.toNat + 4) % 4096) ∧ (s.getV x = nn → PcIsNext s t)

/-- R105, `5XY0`: PC goes 4 on when V[x] = V[y] and 2 on when not; nothing else changes; with x = y it
always skips. The reduction modulo 4096 is the spec's decision (D11; log 12); that `5XYn` with n != 0 is
illegal is D13 (log 14). -/
def Obligations.SkipIfEqualRegisters : Prop :=
  ∀ (x y : RegIdx) (s : State),
    (encode (.seReg x y)).toNat = 0x5000 + x.val * 256 + y.val * 16 ∧
    (∀ w : Word, 0x5000 ≤ w.toNat → w.toNat ≤ 0x5FFF → w.toNat % 16 ≠ 0 →
      decodeWord w = .error (.illegal w)) ∧
    ∃ t, exec (.seReg x y) s = .next t ∧ OnlyPcAndV [] s t ∧
      (s.getV x = s.getV y → t.pc.toNat = (s.pc.toNat + 4) % 4096) ∧
      (s.getV x ≠ s.getV y → PcIsNext s t) ∧ (x = y → t.pc.toNat = (s.pc.toNat + 4) % 4096)

/-- R106, `BNNN`: PC is V[0] + nnn; nothing else changes, VF is no carry of the sum. That the sum is
reduced modulo 4096 is the spec's decision (D11; log 12). -/
def Obligations.IndexedJumpAddsV0 : Prop :=
  ∀ (nnn : Addr) (s : State), ∃ t, exec (.jpV0 nnn) s = .next t ∧
    t.pc.toNat = ((s.getV 0).toNat + nnn.toNat) % 4096 ∧ OnlyPcAndV [] s t

/-! ### Register load, arithmetic, logic, random (41_alu.md) -/

/-- R120, `6XNN`: V[x] is nn; no other register changes, VF only where x names it. -/
def Obligations.LoadImmediateSetsRegister : Prop :=
  ∀ (x : RegIdx) (nn : Byte) (s : State),
    (encode (.ldImm x nn)).toNat = 0x6000 + x.val * 256 + nn.toNat ∧
    ∃ t, exec (.ldImm x nn) s = .next t ∧ t.getV x = nn ∧ t.pc = s.nextPC ∧ OnlyPcAndV [x] s t

/-- R121, `7XNN`: V[x] is (V[x] + nn) mod 256. That VF is not written, but where x names it, is the spec's
decision (D20; log 19). -/
def Obligations.AddImmediateWrapsWithoutFlag : Prop :=
  ∀ (x : RegIdx) (nn : Byte) (s : State),
    (encode (.addImm x nn)).toNat = 0x7000 + x.val * 256 + nn.toNat ∧
    ∃ t, exec (.addImm x nn) s = .next t ∧
      (t.getV x).toNat = ((s.getV x).toNat + nn.toNat) % 256 ∧ t.pc = s.nextPC ∧ OnlyPcAndV [x] s t

/-- R122, `8XY0`: V[x] is V[y]; with x = y nothing but PC changes. -/
def Obligations.CopyRegister : Prop :=
  ∀ (x y : RegIdx) (s : State),
    (encode (.ldReg x y)).toNat = 0x8000 + x.val * 256 + y.val * 16 ∧
    ∃ t, exec (.ldReg x y) s = .next t ∧ t.getV x = s.getV y ∧ t.getV y = s.getV y ∧
      (x = y → KeepsV [] s t) ∧ t.pc = s.nextPC ∧ OnlyPcAndV [x] s t

/-- R123, R124, R125, `8XY1` to `8XY3`: each bit of V[x] is the OR, AND, XOR of the two bits. That no flag
is written is the spec's decision (D20; log 19). -/
def Obligations.LogicIsBitwiseWithoutFlag : Prop :=
  ∀ (x y : RegIdx) (s : State),
    (∃ t, exec (.orReg x y) s = .next t ∧ (∀ k < 8, (t.getV x).getLsbD k =
      ((s.getV x).getLsbD k || (s.getV y).getLsbD k)) ∧ t.pc = s.nextPC ∧ OnlyPcAndV [x] s t) ∧
    (∃ t, exec (.andReg x y) s = .next t ∧ (∀ k < 8, (t.getV x).getLsbD k =
      ((s.getV x).getLsbD k && (s.getV y).getLsbD k)) ∧ t.pc = s.nextPC ∧ OnlyPcAndV [x] s t) ∧
    (∃ t, exec (.xorReg x y) s = .next t ∧ (∀ k < 8, (t.getV x).getLsbD k =
      ((s.getV x).getLsbD k != (s.getV y).getLsbD k)) ∧ t.pc = s.nextPC ∧ OnlyPcAndV [x] s t)

/-- R126, `8XY4`: V[x] is the sum modulo 256 of the old operands, and for x other than F, VF is 1 exactly
when the unreduced sum exceeds 255. That for x = F the result overwrites the flag is the spec's decision
(D16; log 15). -/
def Obligations.AddSetsCarry : Prop :=
  ∀ (x y : RegIdx) (s : State), ∃ t, exec (.addReg x y) s = .next t ∧
    (t.getV x).toNat = ((s.getV x).toNat + (s.getV y).toNat) % 256 ∧
    (x ≠ vfIdx → t.getV vfIdx = if (s.getV x).toNat + (s.getV y).toNat > 255 then 1#8 else 0#8) ∧
    t.pc = s.nextPC ∧ OnlyPcAndV [x, vfIdx] s t

/-- R127, R129, `8XY5`: V[x] is the non-negative remainder modulo 256 of the difference of the old
operands, and for x other than F, VF is 1 exactly when V[x] >= V[y] (no borrow; D33). That for x = F the
result overwrites the flag is the spec's decision (D16; log 15). -/
def Obligations.SubtractSetsNoBorrow : Prop :=
  ∀ (x y : RegIdx) (s : State), ∃ t, exec (.subReg x y) s = .next t ∧
    ((t.getV x).toNat : Int) = (((s.getV x).toNat : Int) - ((s.getV y).toNat : Int)) % 256 ∧
    (x ≠ vfIdx → t.getV vfIdx = if (s.getV x).toNat ≥ (s.getV y).toNat then 1#8 else 0#8) ∧
    t.pc = s.nextPC ∧ OnlyPcAndV [x, vfIdx] s t

/-- R128, `CXNN`: V[x] is the cycle's rnd byte masked with nn, so it has no bit outside nn; and every
submask of nn results for some rnd byte the host may supply. That rnd is an input under no law is the
spec's decision (D21; log 7). -/
def Obligations.RandomIsMaskedInput : Prop :=
  ∀ (x : RegIdx) (nn : Byte) (s : State),
    (∃ t, exec (.rnd x nn) s = .next t ∧ t.getV x = s.rndIn &&& nn ∧
      (∀ k < 8, nn.getLsbD k = false → (t.getV x).getLsbD k = false) ∧
      t.pc = s.nextPC ∧ OnlyPcAndV [x] s t) ∧
    (∀ m : Byte, m &&& nn = m → ∃ inp t,
      exec (.rnd x nn) { s with inputs := inp :: s.inputs } = .next t ∧ t.getV x = m)

/-! ### Index register and memory (42_index_memory.md) -/

/-- R140, `ANNN`: I is nnn, for any nnn; nothing else but PC changes. -/
def Obligations.LoadIndexSetsI : Prop :=
  ∀ (nnn : Addr) (s : State), (encode (.ldI nnn)).toNat = 0xA000 + nnn.toNat ∧
    ∃ t, exec (.ldI nnn) s = .next t ∧ t.i = nnn ∧ t.pc = s.nextPC ∧ KeepsV [] s t ∧ KeepsMem s t ∧
      KeepsStack s t ∧ t.disp = s.disp ∧ KeepsRest s t

/-- R141, `FX29`: for V[x] up to 0xF, I is FONT_BASE + 5 V[x] (no wrap, below 0x200, for a well-formed
configuration); above, it halts with InvalidOperand and the whole register value. That the halted state is
the old one and that the record holds that value are the spec's decisions (D10, D29; log 11). -/
def Obligations.FontAddressOfDigit : Prop :=
  ∀ (x : RegIdx) (s : State), s.cfg.wellFormed = true →
    (encode (.ldF x)).toNat = 0xF029 + x.val * 256 ∧
    ((s.getV x).toNat ≤ 0xF → ∃ t, exec (.ldF x) s = .next t ∧
      t.i.toNat = s.cfg.fontBase.toNat + 5 * (s.getV x).toNat ∧ t.i.toNat < 0x200 ∧ t.pc = s.nextPC ∧
      KeepsV [] s t ∧ KeepsMem s t ∧ KeepsStack s t ∧ t.disp = s.disp ∧ KeepsRest s t) ∧
    ((s.getV x).toNat > 0xF → ∃ r, exec (.ldF x) s = .next { s with run := .halted r } ∧
      r.cause = .invalidOperand ∧ r.info.toNat = (s.getV x).toNat)

/-- R142, `FX33`: with I + 2 up to 0xFFF the hundreds, tens and ones of V[x] go to I, I + 1, I + 2 and
nothing else changes; else it halts with AddressOutOfRange(0x1000) and writes no byte. That no byte in range
is written and what the record holds are the spec's decisions (D10, D29; log 11), so are the fault on the
range (D12; log 12) and that I stays (D19; log 19). -/
def Obligations.BcdStoresThreeDigits : Prop :=
  ∀ (x : RegIdx) (s : State), (encode (.ldB x)).toNat = 0xF033 + x.val * 256 ∧
    (s.i.toNat + 2 ≤ 0xFFF → ∃ t, exec (.ldB x) s = .next t ∧
      (t.readByte (s.effAddr 0)).toNat = (s.getV x).toNat / 100 ∧
      (t.readByte (s.effAddr 1)).toNat = (s.getV x).toNat / 10 % 10 ∧
      (t.readByte (s.effAddr 2)).toNat = (s.getV x).toNat % 10 ∧
      KeepsMemOutside (s.effAddr 0) 3 s t ∧ t.pc = s.nextPC ∧ t.i = s.i ∧ KeepsV [] s t ∧
      KeepsStack s t ∧ t.disp = s.disp ∧ KeepsRest s t) ∧
    (s.i.toNat + 2 > 0xFFF → ∃ r, exec (.ldB x) s = .next { s with run := .halted r } ∧
      r.cause = .addressOutOfRange ∧ r.info = 0x1000#13)

/-- R143, `FX55`: with I + x up to 0xFFF the registers V[0] to V[x] go to I to I + x and nothing else
changes; else it halts with AddressOutOfRange(0x1000) and stores nothing. That no byte in range is stored and
what the record holds are the spec's decisions (D10, D29; log 11), so are the fault on the range (D12; log 12)
and that I stays (D19; log 19). -/
def Obligations.StoreRegistersBlock : Prop :=
  ∀ (x : RegIdx) (s : State), (encode (.stRegs x)).toNat = 0xF055 + x.val * 256 ∧
    (s.i.toNat + x.val ≤ 0xFFF → ∃ t, exec (.stRegs x) s = .next t ∧
      (∀ r : RegIdx, r.val ≤ x.val → t.readByte (s.effAddr r.val) = s.getV r) ∧
      KeepsMemOutside (s.effAddr 0) (x.val + 1) s t ∧ t.pc = s.nextPC ∧ t.i = s.i ∧ KeepsV [] s t ∧
      KeepsStack s t ∧ t.disp = s.disp ∧ KeepsRest s t) ∧
    (s.i.toNat + x.val > 0xFFF → ∃ r, exec (.stRegs x) s = .next { s with run := .halted r } ∧
      r.cause = .addressOutOfRange ∧ r.info = 0x1000#13)

/-- R144, `FX65`: with I + x up to 0xFFF the registers V[0] to V[x] take the bytes at I to I + x, the
registers above V[x] and all else keep their values; else it halts with AddressOutOfRange(0x1000) and writes
no register. That no byte in range is loaded and what the record holds are the spec's decisions (D10, D29;
log 11), so are the fault on the range (D12; log 12) and that I stays (D19; log 19). -/
def Obligations.LoadRegistersBlock : Prop :=
  ∀ (x : RegIdx) (s : State), (encode (.ldRegs x)).toNat = 0xF065 + x.val * 256 ∧
    (s.i.toNat + x.val ≤ 0xFFF → ∃ t, exec (.ldRegs x) s = .next t ∧
      (∀ r : RegIdx, r.val ≤ x.val → t.getV r = s.readByte (s.i.toNat + r.val)) ∧
      (∀ r : RegIdx, x.val < r.val → t.getV r = s.getV r) ∧
      t.pc = s.nextPC ∧ KeepsMem s t ∧ t.i = s.i ∧ KeepsStack s t ∧ t.disp = s.disp ∧ KeepsRest s t) ∧
    (s.i.toNat + x.val > 0xFFF → ∃ r, exec (.ldRegs x) s = .next { s with run := .halted r } ∧
      r.cause = .addressOutOfRange ∧ r.info = 0x1000#13)

/-- R143, R144, R145: a block stored by `FX55` and loaded back by `FX65` into any register contents gives
the stored registers again. That I stays is the spec's decision (D19; log 19). -/
def Obligations.StoreThenLoadRestores : Prop :=
  ∀ (x : RegIdx) (s : State) (v' : Vector Byte 16), s.i.toNat + x.val ≤ 0xFFF →
    ∃ t u, exec (.stRegs x) s = .next t ∧ exec (.ldRegs x) { t with v := v' } = .next u ∧
      (∀ r : RegIdx, r.val ≤ x.val → u.getV r = s.getV r) ∧
      (∀ r : RegIdx, x.val < r.val → u.getV r = v'[r.val])

/-! ### Draw (43_draw.md) -/

/-- R160, R161, `DXYN`: when n = 0 or I + n - 1 is up to 0xFFF, every pixel becomes its old value XOR the
sprite's image, VF is 1 exactly when some covered pixel was on, else 0, and nothing else changes; else it
halts with AddressOutOfRange(0x1000) and neither Disp nor VF changes. The spec's decisions: the bit order, the
reading of V[x] and V[y] before VF is written, the case n = 0 (D17, D18; log 17); the old display and VF kept
where it halts, and the record (D10, D29; log 11); the fault on the range (D12; log 12); I kept (D19; log 19). -/
def Obligations.DrawXorsSpriteImage : Prop :=
  ∀ (x y : RegIdx) (n : BitVec 4) (s : State),
    (n.toNat = 0 ∨ s.i.toNat + n.toNat - 1 ≤ 0xFFF → ∃ t, exec (.drw x y n) s = .next t ∧
      (∀ row col, t.disp.pixel row col = true ↔
        ¬ (s.disp.pixel row col = true ↔ SpritePixel s x y n row col)) ∧
      ((∃ row col, s.disp.pixel row col = true ∧ SpritePixel s x y n row col) → t.getV vfIdx = 1#8) ∧
      ((¬ ∃ row col, s.disp.pixel row col = true ∧ SpritePixel s x y n row col) →
        t.getV vfIdx = 0#8) ∧
      t.pc = s.nextPC ∧ KeepsV [vfIdx] s t ∧ KeepsMem s t ∧ t.i = s.i ∧ KeepsStack s t ∧ KeepsRest s t) ∧
    (n.toNat ≠ 0 ∧ s.i.toNat + n.toNat - 1 > 0xFFF → ∃ r,
      exec (.drw x y n) s = .next { s with run := .halted r } ∧ r.cause = .addressOutOfRange ∧
      r.info = 0x1000#13)

/-- R160, R161: the same draw twice, at the same position, restores the display exactly. What the second
draw sets VF to is the model's deduction from the loop of R160 (log 17, DEDUCED) against the inference of R161
and of R160's corner case (c): 1 exactly when some covered pixel was off before the first, else 0. -/
def Obligations.DrawTwiceRestoresDisplay : Prop :=
  ∀ (x y : RegIdx) (n : BitVec 4) (s t : State), s.i.toNat + n.toNat ≤ 0x1000 →
    exec (.drw x y n) s = .next t → t.getV x = s.getV x → t.getV y = s.getV y →
    ∃ u, exec (.drw x y n) t = .next u ∧ u.disp = s.disp ∧
      ((∃ row col, s.disp.pixel row col = false ∧ SpritePixel s x y n row col) → u.getV vfIdx = 1#8) ∧
      ((¬ ∃ row col, s.disp.pixel row col = false ∧ SpritePixel s x y n row col) → u.getV vfIdx = 0#8)

/-- EXPECTED TO FAIL (log 17). R161's inference, as it is written: of two identical draws the second sets
VF = 1 whenever the sprite has a 1 bit. The loop of R160 says otherwise: over a display on which every
covered pixel was on, the first draw turns them off and the second turns them on, with no collision. -/
def Obligations.SecondDrawAlwaysCollides : Prop :=
  ∀ (x y : RegIdx) (n : BitVec 4) (s t u : State), s.i.toNat + n.toNat ≤ 0x1000 →
    exec (.drw x y n) s = .next t → t.getV x = s.getV x → t.getV y = s.getV y →
    exec (.drw x y n) t = .next u → (∃ row col, SpritePixel s x y n row col) → u.getV vfIdx = 1#8

/-! ### What each instruction writes (10_state.md) -/

/-- R22, R35: an instruction changes no V register but those R35 lists for it; so VF changes as a flag
only by `8XY4`, `8XY5` and `DXYN` (that no other writes it is D20; log 19). -/
def Obligations.RegisterWritersAreTheTable : Prop :=
  ∀ (i : Instr) (s t : State) (r : RegIdx), exec i s = .next t → ¬ writesV i r → t.getV r = s.getV r

/-- R23, R145: only `ANNN` and `FX29` change I (D19; log 19). -/
def Obligations.OnlyTwoInstructionsWriteI : Prop :=
  ∀ (i : Instr) (s t : State), exec i s = .next t → (∀ nnn, i ≠ .ldI nnn) → (∀ x, i ≠ .ldF x) → t.i = s.i

/-- R28, R162: only `DXYN` changes the display. -/
def Obligations.OnlyDrawWritesDisplay : Prop :=
  ∀ (i : Instr) (s t : State), exec i s = .next t → (∀ x y n, i ≠ .drw x y n) → t.disp = s.disp

/-- R25, R26: only `2NNN` changes the stack's entries, only `2NNN` and `00EE` change SP. -/
def Obligations.OnlyCallAndReturnTouchStack : Prop :=
  ∀ (i : Instr) (s t : State), exec i s = .next t → (∀ nnn, i ≠ .call nnn) →
    t.stack = s.stack ∧ (i ≠ .ret → t.sp = s.sp)

/-- R35: only `FX33` and `FX55` change a byte of memory, and those only bytes from I on: the three at I,
or the x + 1 at I. -/
def Obligations.OnlyStoresWriteMemory : Prop :=
  ∀ (i : Instr) (s t : State), exec i s = .next t →
    ((∀ x, i ≠ .ldB x) → (∀ x, i ≠ .stRegs x) → KeepsMem s t) ∧
    (∀ x, i = .ldB x → KeepsMemOutside (s.effAddr 0) 3 s t) ∧
    (∀ x, i = .stRegs x → KeepsMemOutside (s.effAddr 0) (x.val + 1) s t)

/-- R27, R30, R35: no instruction reads or writes a timer or the divider, nor changes the configuration or
the inputs: those change only by the tick and the end of a cycle. -/
def Obligations.NoInstructionTouchesTimers : Prop :=
  ∀ (i : Instr) (s t : State), exec i s = .next t →
    t.dt = s.dt ∧ t.st = s.st ∧ t.tickCount = s.tickCount ∧ t.cfg = s.cfg ∧ t.inputs = s.inputs ∧
      t.draws = s.draws

/-- R24, R174: an instruction outside 40_flow.md that does not fault leaves PC at `next` =
(addr0 + 2) mod 4096. That the sum is reduced modulo 4096 is the spec's decision (D11; log 12). -/
def Obligations.SequentialAdvance : Prop :=
  ∀ (i : Instr) (s t : State), s.run = .running → exec i s = .next t → t.run = .running → ¬ isFlow i →
    t.pc = s.nextPC ∧ PcIsNext s t

/-! ### The cycle (50_execution_loop.md, 60_exceptions.md) -/

/-- R171, R172, R173: when the core runs, no stop is requested and the two bytes at PC, high byte first,
decode to an instruction, the step is exec of that instruction, then the tick where it completed
(`finishCycle`), then the cycle's inputs used up (`useInputs`, the model's own; log 7). -/
def Obligations.StepRunsDecodedInstruction : Prop :=
  ∀ (s : State) (i : Instr), s.run = .running → s.stopIn = false → s.pc.toNat + 1 ≤ 0xFFF →
    decodeBytes [s.readByte s.pc.toNat, s.readByte (s.pc.toNat + 1)] = .ok (i, []) →
    step s = useInputs (finishCycle (exec i s))

/-- R177: a step of a halted core changes nothing, whatever the inputs. That only reset leaves Halted is
the spec's decision (D22; log 13). -/
def Obligations.HaltedStepChangesNothing : Prop :=
  ∀ (s : State) (r : HaltRecord), s.run = .halted r → step s = .next s

/-- R178, R198: a stop request halts a running core with cause 6, word 0, pc = PC, information 0, before
any fetch, whatever stands at PC; nothing else of the machine changes. The sampling is the spec's decision
(D23, D28; log 8). -/
def Obligations.StopRequestHalts : Prop :=
  ∀ s : State, s.run = .running → s.stopIn = true →
    step s = .next (haltedWith .externalStop 0x0000#16 0#13 s).nextInputs

/-- R54, R172, R195: a fetch with PC = 0xFFF halts with AddressOutOfRange(0x1000) and word 0. That the
second byte's address is not wrapped is the spec's decision (D12; log 12). -/
def Obligations.FetchBeyondTopHalts : Prop :=
  ∀ s : State, s.run = .running → s.stopIn = false → s.pc = 0xFFF#12 →
    step s = .next (haltedWith .addressOutOfRange 0x0000#16 0x1000#13 s).nextInputs

/-- R191: each illegal word of R86, when fetched, halts the core with DecodeError, the word and its
address. That families 0 and 5 have only the words of R86's table is D13, D14, D15 (log 14), the record's
content D29 (log 11). -/
def Obligations.IllegalWordHalts : Prop :=
  ∀ (s : State) (w : Word), s.run = .running → s.stopIn = false → s.fetch = some w → IllegalWord w →
    step s = .next (haltedWith .decodeError w 0#13 s).nextInputs

/-- R192, R193, R194, R195, R200: where an instruction faults it halts the core with its cause, its own
word, its address and the information of R190, and changes nothing else. The precision and the record's
content are the spec's decisions (D10, D29; log 11), the range check D12 (log 12). -/
def Obligations.WhereInstructionsFault : Prop :=
  ∀ s : State,
    (∀ nnn, s.sp.val = 16 →
      exec (.call nnn) s = .next (haltedWith .stackOverflow (encode (.call nnn)) 16#13 s)) ∧
    (s.sp.val = 0 → exec .ret s = .next (haltedWith .stackUnderflow 0x00EE#16 0#13 s)) ∧
    (∀ x, (s.getV x).toNat > 0xF → exec (.ldF x) s =
      .next (haltedWith .invalidOperand (encode (.ldF x)) ((s.getV x).setWidth 13) s)) ∧
    (∀ x, s.i.toNat + 2 > 0xFFF → exec (.ldB x) s =
      .next (haltedWith .addressOutOfRange (encode (.ldB x)) 0x1000#13 s)) ∧
    (∀ x, s.i.toNat + x.val > 0xFFF → exec (.stRegs x) s =
      .next (haltedWith .addressOutOfRange (encode (.stRegs x)) 0x1000#13 s)) ∧
    (∀ x, s.i.toNat + x.val > 0xFFF → exec (.ldRegs x) s =
      .next (haltedWith .addressOutOfRange (encode (.ldRegs x)) 0x1000#13 s)) ∧
    (∀ x y n, n.toNat ≠ 0 → s.i.toNat + n.toNat - 1 > 0xFFF → exec (.drw x y n) s =
      .next (haltedWith .addressOutOfRange (encode (.drw x y n)) 0x1000#13 s))

/-- R176, R200: the state in which the core halts is the state before that cycle plus the record, whose
pc is that state's PC: no partial effect, no tick. This precision is the spec's decision (D10; log 11). -/
def Obligations.HaltingCycleIsPrecise : Prop :=
  ∀ (s t : State) (r : HaltRecord), s.run = .running → step s = .next t → t.run = .halted r →
    t = ({ s with run := .halted r } : State).nextInputs ∧ r.pc = s.pc

/-- R190, R198, R199: what the record of a halt says, for each cause: the condition that held, the word
that was fetched (0 for a fetch fault and a stop), the information, and the code. The codes are the
spec's own labels (D27; log 11). -/
def Obligations.HaltRecordIsTheTableRow : Prop :=
  ∀ (s t : State) (r : HaltRecord), s.run = .running → step s = .next t → t.run = .halted r →
    match r.cause with
    | .decodeError => s.stopIn = false ∧ s.fetch = some r.word ∧ IllegalWord r.word ∧ r.info = 0#13 ∧
        r.cause.code = 1
    | .stackOverflow => s.stopIn = false ∧ s.fetch = some r.word ∧
        (∃ nnn, decodeWord r.word = .ok (.call nnn)) ∧ s.sp.val = 16 ∧ r.info = 16#13 ∧ r.cause.code = 2
    | .stackUnderflow => s.stopIn = false ∧ s.fetch = some r.word ∧ decodeWord r.word = .ok .ret ∧
        s.sp.val = 0 ∧ r.info = 0#13 ∧ r.cause.code = 3
    | .invalidOperand => s.stopIn = false ∧ s.fetch = some r.word ∧
        (∃ x, decodeWord r.word = .ok (.ldF x) ∧ (s.getV x).toNat > 0xF ∧
          r.info.toNat = (s.getV x).toNat) ∧ r.cause.code = 4
    | .addressOutOfRange => s.stopIn = false ∧ r.info = 0x1000#13 ∧ r.cause.code = 5 ∧
        ((s.pc = 0xFFF#12 ∧ r.word = 0#16) ∨ (s.fetch = some r.word ∧
          ((∃ x y n, decodeWord r.word = .ok (.drw x y n) ∧ 1 ≤ n.toNat ∧
              s.i.toNat + n.toNat - 1 > 0xFFF) ∨
            (∃ x, decodeWord r.word = .ok (.ldB x) ∧ s.i.toNat + 2 > 0xFFF) ∨
            (∃ x, (decodeWord r.word = .ok (.stRegs x) ∨ decodeWord r.word = .ok (.ldRegs x)) ∧
              s.i.toNat + x.val > 0xFFF))))
    | .externalStop => s.stopIn = true ∧ r.word = 0#16 ∧ r.info = 0#13 ∧ r.cause.code = 6

/-- R175, R208: a cycle that completes an instruction ticks once. TickCount goes up by one, or, on
reaching TIMER_DIVISOR, back to 0, and then each timer that is not 0 goes down by one. The phase of the
divider is the spec's decision (D9; log 2). -/
def Obligations.CompletedCycleTicks : Prop :=
  ∀ s t : State, s.run = .running → step s = .next t → t.run = .running →
    (s.tickCount + 1 = s.cfg.timerDivisor →
      t.tickCount = 0 ∧ t.dt.toNat = s.dt.toNat - 1 ∧ t.st.toNat = s.st.toNat - 1) ∧
    (s.tickCount + 1 ≠ s.cfg.timerDivisor →
      t.tickCount = s.tickCount + 1 ∧ t.dt = s.dt ∧ t.st = s.st)

/-- R182, R199 (derived): every cycle, and every instruction, has a next state from every state: no stuck
state, no fault outcome and no refusal (log 9). -/
def Obligations.EveryStepHasNextState : Prop :=
  ∀ s : State, (∃ t, step s = .next t) ∧ ∀ i, ∃ t, exec i s = .next t

/-- R61, R236 (derived): a store is seen by the very next fetch, whichever bytes it overwrites: after a
cycle that completes `FX33` or `FX55`, wherever I points, the word fetched at the new PC is made of the bytes
stored there and, where a byte of it was not stored to, the byte that was there. That PC wraps and that a
fetch at 0xFFF gives no word are the spec's decisions (D11, D12; log 12). -/
def Obligations.StoreSeenByNextFetch : Prop :=
  ∀ (s : State) (x : RegIdx), s.run = .running → s.stopIn = false →
    (s.fetch = some (encode (.ldB x)) → s.i.toNat + 2 ≤ 0xFFF →
      ∃ t, step s = .next t ∧ t.run = .running ∧ PcIsNext s t ∧ (t.pc ≠ 0xFFF#12 → t.fetch =
        some (wordOfBytes (byteAfterDigits s x t.pc.toNat) (byteAfterDigits s x (t.pc.toNat + 1))))) ∧
    (s.fetch = some (encode (.stRegs x)) → s.i.toNat + x.val ≤ 0xFFF →
      ∃ t, step s = .next t ∧ t.run = .running ∧ PcIsNext s t ∧ (t.pc ≠ 0xFFF#12 → t.fetch =
        some (wordOfBytes (byteAfterBlock s x t.pc.toNat) (byteAfterBlock s x (t.pc.toNat + 1)))))

/-- R32: the rnd byte is read by `CXNN` only: every other instruction gives the same result whatever the
inputs. That `inputs` and `draws` carry it is the model's choice (log 7). -/
def Obligations.OnlyRandomReadsInput : Prop :=
  ∀ (i : Instr) (s t : State) (inputs : List CycleInput) (draws : Nat), (∀ x nn, i ≠ .rnd x nn) →
    exec i s = .next t →
    exec i { s with inputs := inputs, draws := draws } =
      .next { t with inputs := inputs, draws := draws }

/-- R25: dead stack entries cannot be observed: two states that differ only in them step to states that
differ only in them. (That a pop leaves its entry in place is D5; log 3.) -/
def Obligations.DeadStackEntriesUnobservable : Prop :=
  ∀ s s' t : State, AgreeButDead s s' → step s = .next t →
    ∃ t', step s' = .next t' ∧ AgreeButDead t t'

/-! ### Memory (20_memory.md) -/

/-- R53: a byte write below 0x1000 changes exactly that cell, and reading it gives the byte; above, read
and write are rejected, never wrapped (that the rejection is a fault is D12; log 12). -/
def Obligations.ByteWriteChangesOneCell : Prop :=
  ∀ (s : State) (a : Nat) (b : Byte),
    (a ≤ 0xFFF → ∃ t, s.memWrite a b = some t ∧
      (∀ c, c ≤ 0xFFF → t.memRead c = if c = a then some b else s.memRead c) ∧ t = { s with mem := t.mem }) ∧
    (a > 0xFFF → s.memWrite a b = none ∧ s.memRead a = none)

/-! ### Reset and launch (10_state.md, 70_reset_and_hazards.md) -/

/-- R33, R230: what reset leaves, from every state: PC 0x200, Running, SP 0, memory zero but for the font
table at FONT_BASE. That V, I, DT, ST, the display and TickCount are 0 is the spec's decision (D2, D3, D4,
D9; log 2). -/
def Obligations.ResetLeavesTheTable : Prop :=
  ∀ s : State, s.applyReset.pc = 0x200#12 ∧ s.applyReset.run = .running ∧ s.applyReset.sp = 0 ∧
    (∀ k : Fin 80, s.applyReset.readByte (s.cfg.fontBase.toNat + k.val) = s.cfg.fontData[k.val]) ∧
    (∀ a, a < s.cfg.fontBase.toNat ∨ s.cfg.fontBase.toNat + 80 ≤ a → s.applyReset.readByte a = 0#8) ∧
    (∀ r, s.applyReset.getV r = 0#8) ∧ s.applyReset.i = 0#12 ∧ s.applyReset.dt = 0#8 ∧
    s.applyReset.st = 0#8 ∧ (∀ row col, s.applyReset.disp.pixel row col = false) ∧
    s.applyReset.tickCount = 0 ∧ s.applyReset.cfg = s.cfg

/-- R231, R232: a ROM of at most 3584 bytes launches, with its bytes from 0x200 on and every other cell
and register at its reset value, so the font table of a well-formed configuration is untouched; a longer
image is not launched (the host's refusal is D24; log 16). -/
def Obligations.RomLoadPlacesImage : Prop :=
  ∀ (cfg : Config) (rom : List Byte) (inputs : List CycleInput),
    (rom.length ≤ 3584 → ∃ s, launch cfg rom inputs = some s ∧
      (∀ k, (h : k < rom.length) → s.readByte (0x200 + k) = rom[k]) ∧
      KeepsMemOutside 0x200 rom.length (State.resetWith cfg) s ∧
      s = { State.resetWith cfg with mem := s.mem, inputs := inputs }) ∧
    (rom.length > 3584 → launch cfg rom inputs = none)

/-- R66, R231 (derived): the machine launched with no ROM fetches 0x0000 at 0x200 and halts in its first
cycle with DecodeError(0x0000). -/
def Obligations.EmptyRomHaltsAtEntry : Prop :=
  ∀ (cfg : Config) (inputs : List CycleInput), cfg.wellFormed = true →
    (∀ inp ∈ inputs, inp.stop = false) →
    ∃ s t, launch cfg [] inputs = some s ∧ step s = .next t ∧
      t.run = .halted { cause := .decodeError, word := 0x0000#16, pc := 0x200#12, info := 0#13 }

/-! ### Invariants -/

/-- R34 (derived): every step keeps the invariant: the configuration well-formed, memory in its canonical
form inside the 4096 cells, TickCount below TIMER_DIVISOR. -/
def Obligations.StepKeepsInvariant : Prop :=
  ∀ s t : State, s.Inv → step s = .next t → t.Inv

/-- R33, R34: the reset state of every well-formed configuration, the model's reset state, and the state
after reset from any state with such a configuration meet the invariant. -/
def Obligations.ResetMeetsInvariant : Prop :=
  (∀ cfg : Config, cfg.wellFormed = true → (State.resetWith cfg).Inv) ∧ State.reset.Inv ∧
    (∀ s : State, s.cfg.wellFormed = true → s.applyReset.Inv)

/-- R27, R34 (derived): in every state that a run reaches, from any launch, through any cycles, resets and
ROM loads, the invariant holds and DT = ST = 0. -/
def Obligations.ReachableStatesMeetInvariant : Prop :=
  ∀ s : State, Reachable s → s.Inv ∧ s.dt = 0#8 ∧ s.st = 0#8

/-- R27, R208: a timer never goes up: in every step each of DT and ST keeps its value or goes down by one,
and a timer at 0 stays 0. -/
def Obligations.TimersNeverIncrease : Prop :=
  ∀ s t : State, step s = .next t →
    (t.dt.toNat = s.dt.toNat ∨ t.dt.toNat + 1 = s.dt.toNat) ∧
    (t.st.toNat = s.st.toNat ∨ t.st.toNat + 1 = s.st.toNat)
end

