-- ==== Sys2Proof/Laws/Decode.lean ====
section
/-! SUPPORT. The fields of a word and the words of the formats as numbers (30_encoding.md R81, R83). -/

namespace Sys2Proof.Laws.Word

open Sys2Proof Sys2Proof.Machine

/-! ### Fields of a word -/

theorem opField_toNat (w : Word) : (opField w).toNat = w.toNat / 4096 := by
  have := w.isLt
  simp [opField, Nat.shiftRight_eq_div_pow]
  omega

theorem xField_val (w : Word) : (xField w).val = w.toNat / 256 % 16 := by
  simp [xField, Nat.shiftRight_eq_div_pow]

theorem yField_val (w : Word) : (yField w).val = w.toNat / 16 % 16 := by
  simp [yField, Nat.shiftRight_eq_div_pow]

theorem nField_toNat (w : Word) : (nField w).toNat = w.toNat % 16 := by simp [nField]

theorem nnField_toNat (w : Word) : (nnField w).toNat = w.toNat % 256 := by simp [nnField]

theorem nnnField_toNat (w : Word) : (nnnField w).toNat = w.toNat % 4096 := by simp [nnnField]

/-! ### Words of the formats -/

/-- Concatenation as a number. -/
theorem append_toNat {k m : Nat} (a : BitVec k) (b : BitVec m) : (a ++ b).toNat = a.toNat * 2 ^ m + b.toNat := by
  rw [BitVec.toNat_append, ← Nat.shiftLeft_add_eq_or_of_lt b.isLt, Nat.shiftLeft_eq]

theorem wordNNN_toNat (op : BitVec 4) (nnn : Addr) :
    (wordNNN op nnn).toNat = op.toNat * 4096 + nnn.toNat := append_toNat op nnn

theorem wordXNN_toNat (op : BitVec 4) (x : RegIdx) (nn : Byte) :
    (wordXNN op x nn).toNat = op.toNat * 4096 + x.val * 256 + nn.toNat := by
  rw [wordXNN, append_toNat, append_toNat]
  simp only [BitVec.toNat_ofFin]
  omega

theorem wordXYN_toNat (op : BitVec 4) (x y : RegIdx) (n : BitVec 4) :
    (wordXYN op x y n).toNat = op.toNat * 4096 + x.val * 256 + y.val * 16 + n.toNat := by
  rw [wordXYN, append_toNat, append_toNat, append_toNat]
  simp only [BitVec.toNat_ofFin]
  omega

/-- The two bytes of a word make it up again (R54). -/
theorem wordOfBytes_split (w : Word) : wordOfBytes (w.extractLsb' 8 8) (w.extractLsb' 0 8) = w := by
  apply BitVec.eq_of_toNat_eq
  have := w.isLt
  rw [wordOfBytes, append_toNat]
  simp [Nat.shiftRight_eq_div_pow]
  omega

/-- A word as a number from its bytes (R54). -/
theorem wordOfBytes_toNat (hi lo : Byte) : (wordOfBytes hi lo).toNat = hi.toNat * 256 + lo.toNat :=
  append_toNat hi lo

end Sys2Proof.Laws.Word
end

