-- ==== Sys2Proof/Laws/State.lean ====
section
/-! SUPPORT. One lemma for each field of `State` and each update: what the update leaves in the field. -/

namespace Sys2Proof.Laws.StateFields

open Sys2Proof Sys2Proof.Machine

/-! ### `setV` -/

@[simp] theorem setV_mem (s : State) (r : RegIdx) (b : Byte) : (s.setV r b).mem = s.mem := rfl
@[simp] theorem setV_v (s : State) (r : RegIdx) (b : Byte) : (s.setV r b).v = s.v.set r.val b := rfl
@[simp] theorem setV_i (s : State) (r : RegIdx) (b : Byte) : (s.setV r b).i = s.i := rfl
@[simp] theorem setV_pc (s : State) (r : RegIdx) (b : Byte) : (s.setV r b).pc = s.pc := rfl
@[simp] theorem setV_stack (s : State) (r : RegIdx) (b : Byte) : (s.setV r b).stack = s.stack := rfl
@[simp] theorem setV_sp (s : State) (r : RegIdx) (b : Byte) : (s.setV r b).sp = s.sp := rfl
@[simp] theorem setV_dt (s : State) (r : RegIdx) (b : Byte) : (s.setV r b).dt = s.dt := rfl
@[simp] theorem setV_st (s : State) (r : RegIdx) (b : Byte) : (s.setV r b).st = s.st := rfl
@[simp] theorem setV_disp (s : State) (r : RegIdx) (b : Byte) : (s.setV r b).disp = s.disp := rfl
@[simp] theorem setV_tickCount (s : State) (r : RegIdx) (b : Byte) : (s.setV r b).tickCount = s.tickCount := rfl
@[simp] theorem setV_run (s : State) (r : RegIdx) (b : Byte) : (s.setV r b).run = s.run := rfl
@[simp] theorem setV_cfg (s : State) (r : RegIdx) (b : Byte) : (s.setV r b).cfg = s.cfg := rfl
@[simp] theorem setV_inputs (s : State) (r : RegIdx) (b : Byte) : (s.setV r b).inputs = s.inputs := rfl
@[simp] theorem setV_draws (s : State) (r : RegIdx) (b : Byte) : (s.setV r b).draws = s.draws := rfl

/-! ### `setVF` -/

@[simp] theorem setVF_mem (s : State) (f : Byte) : (s.setVF f).mem = s.mem := rfl
@[simp] theorem setVF_v (s : State) (f : Byte) : (s.setVF f).v = s.v.set vfIdx.val f := rfl
@[simp] theorem setVF_i (s : State) (f : Byte) : (s.setVF f).i = s.i := rfl
@[simp] theorem setVF_pc (s : State) (f : Byte) : (s.setVF f).pc = s.pc := rfl
@[simp] theorem setVF_stack (s : State) (f : Byte) : (s.setVF f).stack = s.stack := rfl
@[simp] theorem setVF_sp (s : State) (f : Byte) : (s.setVF f).sp = s.sp := rfl
@[simp] theorem setVF_dt (s : State) (f : Byte) : (s.setVF f).dt = s.dt := rfl
@[simp] theorem setVF_st (s : State) (f : Byte) : (s.setVF f).st = s.st := rfl
@[simp] theorem setVF_disp (s : State) (f : Byte) : (s.setVF f).disp = s.disp := rfl
@[simp] theorem setVF_tickCount (s : State) (f : Byte) : (s.setVF f).tickCount = s.tickCount := rfl
@[simp] theorem setVF_run (s : State) (f : Byte) : (s.setVF f).run = s.run := rfl
@[simp] theorem setVF_cfg (s : State) (f : Byte) : (s.setVF f).cfg = s.cfg := rfl
@[simp] theorem setVF_inputs (s : State) (f : Byte) : (s.setVF f).inputs = s.inputs := rfl
@[simp] theorem setVF_draws (s : State) (f : Byte) : (s.setVF f).draws = s.draws := rfl

/-! ### `setI` -/

@[simp] theorem setI_mem (s : State) (a : Addr) : (s.setI a).mem = s.mem := rfl
@[simp] theorem setI_v (s : State) (a : Addr) : (s.setI a).v = s.v := rfl
@[simp] theorem setI_i (s : State) (a : Addr) : (s.setI a).i = a := rfl
@[simp] theorem setI_pc (s : State) (a : Addr) : (s.setI a).pc = s.pc := rfl
@[simp] theorem setI_stack (s : State) (a : Addr) : (s.setI a).stack = s.stack := rfl
@[simp] theorem setI_sp (s : State) (a : Addr) : (s.setI a).sp = s.sp := rfl
@[simp] theorem setI_dt (s : State) (a : Addr) : (s.setI a).dt = s.dt := rfl
@[simp] theorem setI_st (s : State) (a : Addr) : (s.setI a).st = s.st := rfl
@[simp] theorem setI_disp (s : State) (a : Addr) : (s.setI a).disp = s.disp := rfl
@[simp] theorem setI_tickCount (s : State) (a : Addr) : (s.setI a).tickCount = s.tickCount := rfl
@[simp] theorem setI_run (s : State) (a : Addr) : (s.setI a).run = s.run := rfl
@[simp] theorem setI_cfg (s : State) (a : Addr) : (s.setI a).cfg = s.cfg := rfl
@[simp] theorem setI_inputs (s : State) (a : Addr) : (s.setI a).inputs = s.inputs := rfl
@[simp] theorem setI_draws (s : State) (a : Addr) : (s.setI a).draws = s.draws := rfl

/-! ### `setPC` -/

@[simp] theorem setPC_mem (s : State) (a : Addr) : (s.setPC a).mem = s.mem := rfl
@[simp] theorem setPC_v (s : State) (a : Addr) : (s.setPC a).v = s.v := rfl
@[simp] theorem setPC_i (s : State) (a : Addr) : (s.setPC a).i = s.i := rfl
@[simp] theorem setPC_pc (s : State) (a : Addr) : (s.setPC a).pc = a := rfl
@[simp] theorem setPC_stack (s : State) (a : Addr) : (s.setPC a).stack = s.stack := rfl
@[simp] theorem setPC_sp (s : State) (a : Addr) : (s.setPC a).sp = s.sp := rfl
@[simp] theorem setPC_dt (s : State) (a : Addr) : (s.setPC a).dt = s.dt := rfl
@[simp] theorem setPC_st (s : State) (a : Addr) : (s.setPC a).st = s.st := rfl
@[simp] theorem setPC_disp (s : State) (a : Addr) : (s.setPC a).disp = s.disp := rfl
@[simp] theorem setPC_tickCount (s : State) (a : Addr) : (s.setPC a).tickCount = s.tickCount := rfl
@[simp] theorem setPC_run (s : State) (a : Addr) : (s.setPC a).run = s.run := rfl
@[simp] theorem setPC_cfg (s : State) (a : Addr) : (s.setPC a).cfg = s.cfg := rfl
@[simp] theorem setPC_inputs (s : State) (a : Addr) : (s.setPC a).inputs = s.inputs := rfl
@[simp] theorem setPC_draws (s : State) (a : Addr) : (s.setPC a).draws = s.draws := rfl

/-! ### `advance` -/

@[simp] theorem advance_mem (s : State) : (s.advance).mem = s.mem := rfl
@[simp] theorem advance_v (s : State) : (s.advance).v = s.v := rfl
@[simp] theorem advance_i (s : State) : (s.advance).i = s.i := rfl
@[simp] theorem advance_pc (s : State) : (s.advance).pc = s.pc + 2#12 := rfl
@[simp] theorem advance_stack (s : State) : (s.advance).stack = s.stack := rfl
@[simp] theorem advance_sp (s : State) : (s.advance).sp = s.sp := rfl
@[simp] theorem advance_dt (s : State) : (s.advance).dt = s.dt := rfl
@[simp] theorem advance_st (s : State) : (s.advance).st = s.st := rfl
@[simp] theorem advance_disp (s : State) : (s.advance).disp = s.disp := rfl
@[simp] theorem advance_tickCount (s : State) : (s.advance).tickCount = s.tickCount := rfl
@[simp] theorem advance_run (s : State) : (s.advance).run = s.run := rfl
@[simp] theorem advance_cfg (s : State) : (s.advance).cfg = s.cfg := rfl
@[simp] theorem advance_inputs (s : State) : (s.advance).inputs = s.inputs := rfl
@[simp] theorem advance_draws (s : State) : (s.advance).draws = s.draws := rfl

/-! ### `writeByte` -/

@[simp] theorem writeByte_mem (s : State) (a : Nat) (b : Byte) : (s.writeByte a b).mem = s.mem.write s.cfg a b := rfl
@[simp] theorem writeByte_v (s : State) (a : Nat) (b : Byte) : (s.writeByte a b).v = s.v := rfl
@[simp] theorem writeByte_i (s : State) (a : Nat) (b : Byte) : (s.writeByte a b).i = s.i := rfl
@[simp] theorem writeByte_pc (s : State) (a : Nat) (b : Byte) : (s.writeByte a b).pc = s.pc := rfl
@[simp] theorem writeByte_stack (s : State) (a : Nat) (b : Byte) : (s.writeByte a b).stack = s.stack := rfl
@[simp] theorem writeByte_sp (s : State) (a : Nat) (b : Byte) : (s.writeByte a b).sp = s.sp := rfl
@[simp] theorem writeByte_dt (s : State) (a : Nat) (b : Byte) : (s.writeByte a b).dt = s.dt := rfl
@[simp] theorem writeByte_st (s : State) (a : Nat) (b : Byte) : (s.writeByte a b).st = s.st := rfl
@[simp] theorem writeByte_disp (s : State) (a : Nat) (b : Byte) : (s.writeByte a b).disp = s.disp := rfl
@[simp] theorem writeByte_tickCount (s : State) (a : Nat) (b : Byte) : (s.writeByte a b).tickCount = s.tickCount := rfl
@[simp] theorem writeByte_run (s : State) (a : Nat) (b : Byte) : (s.writeByte a b).run = s.run := rfl
@[simp] theorem writeByte_cfg (s : State) (a : Nat) (b : Byte) : (s.writeByte a b).cfg = s.cfg := rfl
@[simp] theorem writeByte_inputs (s : State) (a : Nat) (b : Byte) : (s.writeByte a b).inputs = s.inputs := rfl
@[simp] theorem writeByte_draws (s : State) (a : Nat) (b : Byte) : (s.writeByte a b).draws = s.draws := rfl

/-! ### `push` -/

@[simp] theorem push_mem (s : State) (h : s.sp.val < 16) : (s.push h).mem = s.mem := rfl
@[simp] theorem push_v (s : State) (h : s.sp.val < 16) : (s.push h).v = s.v := rfl
@[simp] theorem push_i (s : State) (h : s.sp.val < 16) : (s.push h).i = s.i := rfl
@[simp] theorem push_pc (s : State) (h : s.sp.val < 16) : (s.push h).pc = s.pc := rfl
@[simp] theorem push_stack (s : State) (h : s.sp.val < 16) : (s.push h).stack = s.stack.set s.sp.val s.pc := rfl
@[simp] theorem push_sp (s : State) (h : s.sp.val < 16) : (s.push h).sp = ⟨s.sp.val + 1, by omega⟩ := rfl
@[simp] theorem push_dt (s : State) (h : s.sp.val < 16) : (s.push h).dt = s.dt := rfl
@[simp] theorem push_st (s : State) (h : s.sp.val < 16) : (s.push h).st = s.st := rfl
@[simp] theorem push_disp (s : State) (h : s.sp.val < 16) : (s.push h).disp = s.disp := rfl
@[simp] theorem push_tickCount (s : State) (h : s.sp.val < 16) : (s.push h).tickCount = s.tickCount := rfl
@[simp] theorem push_run (s : State) (h : s.sp.val < 16) : (s.push h).run = s.run := rfl
@[simp] theorem push_cfg (s : State) (h : s.sp.val < 16) : (s.push h).cfg = s.cfg := rfl
@[simp] theorem push_inputs (s : State) (h : s.sp.val < 16) : (s.push h).inputs = s.inputs := rfl
@[simp] theorem push_draws (s : State) (h : s.sp.val < 16) : (s.push h).draws = s.draws := rfl

/-! ### `setDrawn` -/

@[simp] theorem setDrawn_mem (s : State) (d : DrawState) : (s.setDrawn d).mem = s.mem := rfl
@[simp] theorem setDrawn_v (s : State) (d : DrawState) : (s.setDrawn d).v = s.v.set vfIdx.val (collisionFlag d.hit) := rfl
@[simp] theorem setDrawn_i (s : State) (d : DrawState) : (s.setDrawn d).i = s.i := rfl
@[simp] theorem setDrawn_pc (s : State) (d : DrawState) : (s.setDrawn d).pc = s.pc := rfl
@[simp] theorem setDrawn_stack (s : State) (d : DrawState) : (s.setDrawn d).stack = s.stack := rfl
@[simp] theorem setDrawn_sp (s : State) (d : DrawState) : (s.setDrawn d).sp = s.sp := rfl
@[simp] theorem setDrawn_dt (s : State) (d : DrawState) : (s.setDrawn d).dt = s.dt := rfl
@[simp] theorem setDrawn_st (s : State) (d : DrawState) : (s.setDrawn d).st = s.st := rfl
@[simp] theorem setDrawn_disp (s : State) (d : DrawState) : (s.setDrawn d).disp = d.disp := rfl
@[simp] theorem setDrawn_tickCount (s : State) (d : DrawState) : (s.setDrawn d).tickCount = s.tickCount := rfl
@[simp] theorem setDrawn_run (s : State) (d : DrawState) : (s.setDrawn d).run = s.run := rfl
@[simp] theorem setDrawn_cfg (s : State) (d : DrawState) : (s.setDrawn d).cfg = s.cfg := rfl
@[simp] theorem setDrawn_inputs (s : State) (d : DrawState) : (s.setDrawn d).inputs = s.inputs := rfl
@[simp] theorem setDrawn_draws (s : State) (d : DrawState) : (s.setDrawn d).draws = s.draws := rfl

/-! ### `tick`: the three fields it writes are in Laws/Ops.lean -/

@[simp] theorem tick_mem (s : State) : (s.tick).mem = s.mem := rfl
@[simp] theorem tick_v (s : State) : (s.tick).v = s.v := rfl
@[simp] theorem tick_i (s : State) : (s.tick).i = s.i := rfl
@[simp] theorem tick_pc (s : State) : (s.tick).pc = s.pc := rfl
@[simp] theorem tick_stack (s : State) : (s.tick).stack = s.stack := rfl
@[simp] theorem tick_sp (s : State) : (s.tick).sp = s.sp := rfl
@[simp] theorem tick_disp (s : State) : (s.tick).disp = s.disp := rfl
@[simp] theorem tick_run (s : State) : (s.tick).run = s.run := rfl
@[simp] theorem tick_cfg (s : State) : (s.tick).cfg = s.cfg := rfl
@[simp] theorem tick_inputs (s : State) : (s.tick).inputs = s.inputs := rfl
@[simp] theorem tick_draws (s : State) : (s.tick).draws = s.draws := rfl

/-! ### `nextInputs` -/

@[simp] theorem nextInputs_mem (s : State) : (s.nextInputs).mem = s.mem := rfl
@[simp] theorem nextInputs_v (s : State) : (s.nextInputs).v = s.v := rfl
@[simp] theorem nextInputs_i (s : State) : (s.nextInputs).i = s.i := rfl
@[simp] theorem nextInputs_pc (s : State) : (s.nextInputs).pc = s.pc := rfl
@[simp] theorem nextInputs_stack (s : State) : (s.nextInputs).stack = s.stack := rfl
@[simp] theorem nextInputs_sp (s : State) : (s.nextInputs).sp = s.sp := rfl
@[simp] theorem nextInputs_dt (s : State) : (s.nextInputs).dt = s.dt := rfl
@[simp] theorem nextInputs_st (s : State) : (s.nextInputs).st = s.st := rfl
@[simp] theorem nextInputs_disp (s : State) : (s.nextInputs).disp = s.disp := rfl
@[simp] theorem nextInputs_tickCount (s : State) : (s.nextInputs).tickCount = s.tickCount := rfl
@[simp] theorem nextInputs_run (s : State) : (s.nextInputs).run = s.run := rfl
@[simp] theorem nextInputs_cfg (s : State) : (s.nextInputs).cfg = s.cfg := rfl
@[simp] theorem nextInputs_inputs (s : State) : (s.nextInputs).inputs = s.inputs.tail := rfl
@[simp] theorem nextInputs_draws (s : State) : (s.nextInputs).draws = s.draws + 1 := rfl

/-! ### `takeFault` -/

@[simp] theorem takeFault_mem (s : State) (c : Cause) (w : Word) (info : BitVec 13) : (takeFault c w info s).mem = s.mem := rfl
@[simp] theorem takeFault_v (s : State) (c : Cause) (w : Word) (info : BitVec 13) : (takeFault c w info s).v = s.v := rfl
@[simp] theorem takeFault_i (s : State) (c : Cause) (w : Word) (info : BitVec 13) : (takeFault c w info s).i = s.i := rfl
@[simp] theorem takeFault_pc (s : State) (c : Cause) (w : Word) (info : BitVec 13) : (takeFault c w info s).pc = s.pc := rfl
@[simp] theorem takeFault_stack (s : State) (c : Cause) (w : Word) (info : BitVec 13) : (takeFault c w info s).stack = s.stack := rfl
@[simp] theorem takeFault_sp (s : State) (c : Cause) (w : Word) (info : BitVec 13) : (takeFault c w info s).sp = s.sp := rfl
@[simp] theorem takeFault_dt (s : State) (c : Cause) (w : Word) (info : BitVec 13) : (takeFault c w info s).dt = s.dt := rfl
@[simp] theorem takeFault_st (s : State) (c : Cause) (w : Word) (info : BitVec 13) : (takeFault c w info s).st = s.st := rfl
@[simp] theorem takeFault_disp (s : State) (c : Cause) (w : Word) (info : BitVec 13) : (takeFault c w info s).disp = s.disp := rfl
@[simp] theorem takeFault_tickCount (s : State) (c : Cause) (w : Word) (info : BitVec 13) : (takeFault c w info s).tickCount = s.tickCount := rfl
@[simp] theorem takeFault_run (s : State) (c : Cause) (w : Word) (info : BitVec 13) : (takeFault c w info s).run = .halted { cause := c, word := w, pc := s.pc, info := info } := rfl
@[simp] theorem takeFault_cfg (s : State) (c : Cause) (w : Word) (info : BitVec 13) : (takeFault c w info s).cfg = s.cfg := rfl
@[simp] theorem takeFault_inputs (s : State) (c : Cause) (w : Word) (info : BitVec 13) : (takeFault c w info s).inputs = s.inputs := rfl
@[simp] theorem takeFault_draws (s : State) (c : Cause) (w : Word) (info : BitVec 13) : (takeFault c w info s).draws = s.draws := rfl

end Sys2Proof.Laws.StateFields
end

