-- ==== Sys2Proof/Laws/Memory.lean ====
section
/-! SUPPORT. The laws of memory: a read after a write (20_memory.md R53), and every memory operation keeps
the canonical form. -/

namespace Sys2Proof.Laws.Mem

open Sys2Proof Sys2Proof.Machine

/-! ### Look-up -/

theorem lookup_erase (m : Memory) (a c : Nat) :
    (m.erase a).lookup c = if c = a then none else m.lookup c := by
  induction m with
  | nil => simp [Memory.erase, Memory.lookup]
  | cons e m ih =>
    obtain ⟨k, b⟩ := e
    by_cases hk : k = a
    · subst hk
      by_cases hc : c = k
      · subst hc; simp [Memory.erase, ih]
      · simp [Memory.erase, Memory.lookup, ih, hc, Ne.symm hc]
    · by_cases hc : k = c
      · subst hc; simp [Memory.erase, Memory.lookup, hk]
      · simp [Memory.erase, Memory.lookup, hk, hc, ih]

theorem lookup_insert (m : Memory) (a c : Nat) (b : Byte) :
    (m.insert a b).lookup c = if c = a then some b else m.lookup c := by
  induction m with
  | nil => simp [Memory.insert, Memory.lookup, eq_comm]
  | cons e m ih =>
    obtain ⟨k, d⟩ := e
    by_cases hlt : a < k
    · simp [Memory.insert, Memory.lookup, hlt, eq_comm]
    · by_cases hak : a = k
      · subst hak
        by_cases hc : a = c
        · simp [Memory.insert, Memory.lookup, hc]
        · simp [Memory.insert, Memory.lookup, hc, Ne.symm hc]
      · by_cases hc : k = c
        · subst hc; simp [Memory.insert, Memory.lookup, hlt, hak, Ne.symm hak]
        · simp [Memory.insert, Memory.lookup, hlt, hak, hc, ih]

/-- A read after a write: the byte written at the address, what was there elsewhere. -/
theorem read_write (cfg : Config) (m : Memory) (a c : Nat) (b : Byte) :
    (m.write cfg a b).read cfg c = if c = a then b else m.read cfg c := by
  by_cases hb : b = resetByte cfg a
  · by_cases hc : c = a
    · subst hc; simp [Memory.write, Memory.read, hb, lookup_erase]
    · simp [Memory.write, Memory.read, ← hb, lookup_erase, hc]
  · by_cases hc : c = a <;> simp [Memory.write, Memory.read, hb, lookup_insert, hc]

/-- The same in a state. -/
theorem readByte_writeByte (s : State) (a c : Nat) (b : Byte) :
    (s.writeByte a b).readByte c = if c = a then b else s.readByte c :=
  read_write s.cfg s.mem a c b

/-- A read depends on the memory and the configuration only. -/
theorem readByte_congr {s t : State} (hm : t.mem = s.mem) (hc : t.cfg = s.cfg) (a : Nat) :
    t.readByte a = s.readByte a := by simp [State.readByte, hm, hc]

/-! ### The canonical form -/

theorem risesFrom_mono {lo lo' : Nat} {m : Memory} (h : lo' ≤ lo) (hm : Memory.risesFrom lo m = true) :
    Memory.risesFrom lo' m = true := by
  cases m with
  | nil => rfl
  | cons e m =>
    simp only [Memory.risesFrom, Bool.and_eq_true, decide_eq_true_eq] at hm ⊢
    exact ⟨⟨by omega, hm.1.2⟩, hm.2⟩

theorem risesFrom_erase (a : Nat) (m : Memory) : ∀ lo, Memory.risesFrom lo m = true →
    Memory.risesFrom lo (m.erase a) = true := by
  induction m with
  | nil => intro lo _; rfl
  | cons e m ih =>
    intro lo hm
    obtain ⟨k, b⟩ := e
    simp only [Memory.risesFrom, Bool.and_eq_true, decide_eq_true_eq] at hm
    by_cases hk : k = a
    · simpa [Memory.erase, hk] using ih lo (risesFrom_mono (by omega) hm.2)
    · simp [Memory.erase, hk, Memory.risesFrom, hm.1, ih _ hm.2]

theorem risesFrom_insert (a : Nat) (b : Byte) (ha : a < 0x1000) (m : Memory) : ∀ lo, lo ≤ a →
    Memory.risesFrom lo m = true → Memory.risesFrom lo (m.insert a b) = true := by
  induction m with
  | nil => intro lo hlo _; simp [Memory.insert, Memory.risesFrom, hlo, ha]
  | cons e m ih =>
    intro lo hlo hm
    obtain ⟨k, c⟩ := e
    simp only [Memory.risesFrom, Bool.and_eq_true, decide_eq_true_eq] at hm
    by_cases hlt : a < k
    · simp [Memory.insert, hlt, Memory.risesFrom, hlo, ha, hm.1.2, hm.2, Nat.succ_le_of_lt hlt]
    · by_cases hak : a = k
      · subst hak; simp [Memory.insert, Memory.risesFrom, hm.1, hm.2]
      · simp [Memory.insert, hlt, hak, Memory.risesFrom, hm.1, ih (k + 1) (by omega) hm.2]

theorem mem_of_mem_erase {m : Memory} {a : Nat} {e : Host.Cell} (h : e ∈ m.erase a) : e ∈ m := by
  induction m with
  | nil => simp [Memory.erase] at h
  | cons d m ih =>
    obtain ⟨k, b⟩ := d
    by_cases hk : k = a
    · simp only [Memory.erase, hk, if_true] at h
      exact List.mem_cons_of_mem _ (ih h)
    · simp only [Memory.erase, hk, if_false, List.mem_cons] at h
      rcases h with h | h
      · exact h ▸ List.mem_cons_self
      · exact List.mem_cons_of_mem _ (ih h)

theorem mem_of_mem_insert {m : Memory} {a : Nat} {b : Byte} {e : Host.Cell} (h : e ∈ m.insert a b) :
    e = (a, b) ∨ e ∈ m := by
  induction m with
  | nil => simpa [Memory.insert] using h
  | cons d m ih =>
    obtain ⟨k, c⟩ := d
    simp only [Memory.insert] at h
    split at h
    · simpa using h
    · split at h
      · simp only [List.mem_cons] at h ⊢; tauto
      · simp only [List.mem_cons] at h ⊢
        rcases h with h | h
        · tauto
        · have := ih h; tauto

/-- A write below 0x1000 keeps the canonical form. -/
theorem wf_write (cfg : Config) (m : Memory) (a : Nat) (b : Byte) (ha : a < 0x1000)
    (h : Memory.wf cfg m = true) : Memory.wf cfg (m.write cfg a b) = true := by
  simp only [Memory.wf, Bool.and_eq_true, List.all_eq_true, decide_eq_true_eq] at h ⊢
  by_cases hb : b = resetByte cfg a
  · simp only [Memory.write, if_pos hb]
    exact ⟨risesFrom_erase a m 0 h.1, fun e he => h.2 e (mem_of_mem_erase he)⟩
  · simp only [Memory.write, if_neg hb]
    refine ⟨risesFrom_insert a b ha m 0 (Nat.zero_le _) h.1, fun e he => ?_⟩
    rcases mem_of_mem_insert he with rfl | he
    · exact hb
    · exact h.2 e he

/-- The memory of every reset state, which lists nothing, has the canonical form. -/
theorem wf_reset (cfg : Config) : Memory.wf cfg (State.resetWith cfg).mem = true := rfl

/-! ### A ROM image -/

/-- What storing bytes from `a` upward leaves at an address. -/
theorem readByte_storeBytes (bs : List Byte) : ∀ (s : State) (a c : Nat),
    (s.storeBytes a bs).readByte c =
      if h : a ≤ c ∧ c < a + bs.length then bs[c - a] else s.readByte c := by
  induction bs with
  | nil => intro s a c; simp [State.storeBytes]
  | cons b bs ih =>
    intro s a c
    rw [State.storeBytes, ih, readByte_writeByte]
    by_cases h1 : a + 1 ≤ c ∧ c < a + 1 + bs.length
    · have h2 : a ≤ c ∧ c < a + (b :: bs).length := by simp; omega
      rw [dif_pos h1, dif_pos h2, List.getElem_cons]
      have : c - a ≠ 0 := by omega
      simp only [this, dif_neg, not_false_eq_true]
      congr 1
    · rw [dif_neg h1]
      by_cases h3 : c = a
      · subst h3; simp
      · have h2 : ¬ (a ≤ c ∧ c < a + (b :: bs).length) := by simp; omega
        rw [dif_neg h2, if_neg h3]

/-- Storing bytes changes memory alone. -/
theorem storeBytes_frame (bs : List Byte) : ∀ (s : State) (a : Nat),
    s.storeBytes a bs = { s with mem := (s.storeBytes a bs).mem } := by
  induction bs with
  | nil => intro s a; rfl
  | cons b bs ih => intro s a; rw [State.storeBytes, ih]; rfl

/-- Storing bytes inside the 4096 cells keeps the canonical form. -/
theorem wf_storeBytes (bs : List Byte) : ∀ (s : State) (a : Nat), a + bs.length ≤ 0x1000 →
    Memory.wf s.cfg s.mem = true → Memory.wf s.cfg (s.storeBytes a bs).mem = true := by
  induction bs with
  | nil => intro s a _ h; exact h
  | cons b bs ih =>
    intro s a ha h
    simp only [List.length_cons] at ha
    exact ih (s.writeByte a b) (a + 1) (by omega) (wf_write s.cfg s.mem a b (by omega) h)

end Sys2Proof.Laws.Mem
end

