-- ==== Sys2Proof/Laws/Ops.lean ====
section
/-! SUPPORT. What each shared operation over registers, blocks and the cycle can do, said once. -/

namespace Sys2Proof.Laws.Ops

open Sys2Proof Sys2Proof.Machine

/-! ### Registers -/

/-- A register after a register write. -/
theorem getV_setV (s : State) (r q : RegIdx) (b : Byte) :
    (s.setV r b).getV q = if q = r then b else s.getV q := by
  simp only [State.getV, State.setV, Vector.getElem_set, Fin.ext_iff, eq_comm]

theorem getV_setVF (s : State) (q : RegIdx) (b : Byte) :
    (s.setVF b).getV q = if q = vfIdx then b else s.getV q := getV_setV s vfIdx q b

/-- A register depends on the register file only. -/
theorem getV_congr {s t : State} (h : t.v = s.v) (r : RegIdx) : t.getV r = s.getV r := by
  simp [State.getV, h]

@[simp] theorem getV_setPC (s : State) (a : Addr) (r : RegIdx) : (s.setPC a).getV r = s.getV r := rfl
@[simp] theorem getV_setI (s : State) (a : Addr) (r : RegIdx) : (s.setI a).getV r = s.getV r := rfl
@[simp] theorem getV_advance (s : State) (r : RegIdx) : s.advance.getV r = s.getV r := rfl
@[simp] theorem getV_writeByte (s : State) (a : Nat) (b : Byte) (r : RegIdx) :
    (s.writeByte a b).getV r = s.getV r := rfl
@[simp] theorem getV_tick (s : State) (r : RegIdx) : s.tick.getV r = s.getV r := rfl
@[simp] theorem getV_nextInputs (s : State) (r : RegIdx) : s.nextInputs.getV r = s.getV r := rfl
@[simp] theorem readByte_setPC (s : State) (a : Addr) (c : Nat) : (s.setPC a).readByte c = s.readByte c := rfl
@[simp] theorem readByte_setI (s : State) (a : Addr) (c : Nat) : (s.setI a).readByte c = s.readByte c := rfl
@[simp] theorem readByte_setV (s : State) (r : RegIdx) (b : Byte) (c : Nat) :
    (s.setV r b).readByte c = s.readByte c := rfl
@[simp] theorem readByte_advance (s : State) (c : Nat) : s.advance.readByte c = s.readByte c := rfl
@[simp] theorem readByte_tick (s : State) (c : Nat) : s.tick.readByte c = s.readByte c := rfl
@[simp] theorem readByte_nextInputs (s : State) (c : Nat) : s.nextInputs.readByte c = s.readByte c := rfl

/-- `next` as a number (R174). -/
theorem nextPC_toNat (s : State) : s.nextPC.toNat = (s.pc.toNat + 2) % 4096 := by
  simp [State.nextPC, BitVec.toNat_add]

/-- Where a taken skip goes, as a number (R24). -/
theorem skipPC_toNat (s : State) : s.skipPC.toNat = (s.pc.toNat + 4) % 4096 := by
  simp [State.skipPC, BitVec.toNat_add]

@[simp] theorem pc_advance (s : State) : s.advance.pc = s.nextPC := rfl

theorem pcIsNext_advance (s : State) : PcIsNext s s.advance := nextPC_toNat s

/-- A register written and PC advanced: all that happens. -/
theorem loadV_frame (s : State) (x : RegIdx) (b : Byte) :
    (s.loadV x b).getV x = b ∧ (s.loadV x b).pc = s.nextPC ∧ OnlyPcAndV [x] s (s.loadV x b) := by
  refine ⟨by simp [State.loadV, getV_setV], rfl, ?_, fun _ => rfl, rfl, ⟨rfl, rfl⟩, rfl,
    rfl, rfl, rfl, rfl, rfl, rfl, rfl⟩
  intro r hr
  have : r ≠ x := by simpa using hr
  simp [State.loadV, getV_setV, this]

/-- A flag, then a register written and PC advanced: all that happens. -/
theorem loadFlagged_frame (s : State) (x : RegIdx) (f b : Byte) :
    (s.loadFlagged x f b).getV x = b ∧ (x ≠ vfIdx → (s.loadFlagged x f b).getV vfIdx = f) ∧
      (s.loadFlagged x f b).pc = s.nextPC ∧ OnlyPcAndV [x, vfIdx] s (s.loadFlagged x f b) := by
  refine ⟨by simp [State.loadFlagged, getV_setV], fun hx => ?_, rfl, ?_, fun _ => rfl, rfl,
    ⟨rfl, rfl⟩, rfl, rfl, rfl, rfl, rfl, rfl, rfl, rfl⟩
  · simp [State.loadFlagged, getV_setV, getV_setVF, Ne.symm hx]
  · intro r hr
    have : r ≠ x ∧ r ≠ vfIdx := by simpa using hr
    simp [State.loadFlagged, getV_setV, getV_setVF, this.1, this.2]

/-! ### Register blocks -/

/-- When a block of bytes from I fits (R63). -/
theorem blockFits_iff (s : State) (n : Nat) : s.blockFits n = true ↔ s.i.toNat + n ≤ 0x1000 :=
  decide_eq_true_iff

theorem blockFits_false_iff (s : State) (n : Nat) : s.blockFits n = false ↔ 0x1000 < s.i.toNat + n := by
  rw [← Bool.not_eq_true, blockFits_iff, Nat.not_le]

theorem regAt_val (k : Nat) (h : k < 16) : (regAt k).val = k := Nat.mod_eq_of_lt h

/-- Storing a block changes memory alone. -/
theorem storeBlock_frame (s : State) (n : Nat) : s.storeBlock n = { s with mem := (s.storeBlock n).mem } := by
  induction n with
  | zero => rfl
  | succ k ih => rw [State.storeBlock, ih]; rfl

/-- What storing a block of up to 16 registers leaves at an address (R143). -/
theorem readByte_storeBlock (s : State) (n : Nat) (hn : n ≤ 16) (a : Nat) :
    (s.storeBlock n).readByte a =
      if s.i.toNat ≤ a ∧ a < s.i.toNat + n then s.getV (regAt (a - s.i.toNat)) else s.readByte a := by
  induction n with
  | zero => simp [State.storeBlock]
  | succ k ih =>
    rw [State.storeBlock, Mem.readByte_writeByte, ih (by omega)]
    by_cases ha : a = s.effAddr k
    · subst ha; simp [State.effAddr]
    · have : a ≠ s.i.toNat + k := ha
      simp only [ha, if_false]
      congr 1
      simp only [eq_iff_iff]
      omega

/-- Storing a block that fits keeps the canonical form. -/
theorem wf_storeBlock (s : State) (n : Nat) (hn : s.i.toNat + n ≤ 0x1000)
    (h : Memory.wf s.cfg s.mem = true) : Memory.wf s.cfg (s.storeBlock n).mem = true := by
  induction n with
  | zero => exact h
  | succ k ih =>
    have hc : (s.storeBlock k).cfg = s.cfg := by rw [storeBlock_frame]
    have := Mem.wf_write s.cfg (s.storeBlock k).mem (s.effAddr k) (s.getV (regAt k))
      (by simp only [State.effAddr]; omega) (ih (by omega))
    simpa [State.storeBlock, hc] using this

/-- Loading a block changes the registers alone. -/
theorem loadBlock_frame (s : State) (n : Nat) : s.loadBlock n = { s with v := (s.loadBlock n).v } := by
  induction n with
  | zero => rfl
  | succ k ih => rw [State.loadBlock, ih]; rfl

/-- What loading a block of up to 16 registers leaves in a register (R144). -/
theorem getV_loadBlock (s : State) (n : Nat) (hn : n ≤ 16) (r : RegIdx) :
    (s.loadBlock n).getV r = if r.val < n then s.readByte (s.i.toNat + r.val) else s.getV r := by
  induction n with
  | zero => simp [State.loadBlock]
  | succ k ih =>
    rw [State.loadBlock, getV_setV, ih (by omega)]
    by_cases hr : r = regAt k
    · have hv : r.val = k := by rw [hr, regAt_val k (by omega)]
      rw [if_pos hr, if_pos (by omega), State.effAddr, hv]
    · have hv : r.val ≠ k := fun h => hr (Fin.ext (by rw [regAt_val k (by omega), h]))
      simp only [hr, if_false]
      congr 1
      simp only [eq_iff_iff]
      omega

/-- The three digit stores (R142): what is left at an address. -/
theorem readByte_storeDigits (s : State) (b : Byte) (a : Nat) :
    (s.storeDigits b).readByte a =
      if a = s.effAddr 2 then onesDigit b else if a = s.effAddr 1 then tensDigit b
      else if a = s.effAddr 0 then hundredsDigit b else s.readByte a := by
  simp only [State.storeDigits, Mem.readByte_writeByte]

/-- What `FX33` leaves at an address, as Safety says it. -/
theorem readByte_storeDigits_eq (s : State) (x : RegIdx) (a : Nat) :
    (s.storeDigits (s.getV x)).readByte a = byteAfterDigits s x a := by
  have h01 : s.effAddr 1 = s.effAddr 0 + 1 := rfl
  have h02 : s.effAddr 2 = s.effAddr 0 + 2 := rfl
  rw [readByte_storeDigits, byteAfterDigits]
  by_cases h2 : a = s.effAddr 2
  · rw [if_pos h2, if_neg (by omega), if_neg (by omega), if_pos h2]; rfl
  · by_cases h1 : a = s.effAddr 1
    · rw [if_neg h2, if_pos h1, if_neg (by omega), if_pos h1]; rfl
    · rw [if_neg h2, if_neg h1, if_neg h1, if_neg h2]; rfl

/-- What `FX55` leaves at an address, as Safety says it. -/
theorem readByte_storeBlock_eq (s : State) (x : RegIdx) (a : Nat) :
    (s.storeBlock (x.val + 1)).readByte a = byteAfterBlock s x a := by
  rw [readByte_storeBlock s _ x.isLt, byteAfterBlock]
  simp only [State.effAddr, Nat.add_zero]
  congr 1
  simp only [eq_iff_iff]
  omega

theorem storeDigits_frame (s : State) (b : Byte) :
    s.storeDigits b = { s with mem := (s.storeDigits b).mem } := rfl

theorem wf_storeDigits (s : State) (b : Byte) (hn : s.i.toNat + 3 ≤ 0x1000)
    (h : Memory.wf s.cfg s.mem = true) : Memory.wf s.cfg (s.storeDigits b).mem = true := by
  have h0 : s.effAddr 0 < 0x1000 := by simp only [State.effAddr]; omega
  have h1 : s.effAddr 1 < 0x1000 := by simp only [State.effAddr]; omega
  have h2 : s.effAddr 2 < 0x1000 := by simp only [State.effAddr]; omega
  exact Mem.wf_write _ _ _ _ h2 (Mem.wf_write _ _ _ _ h1 (Mem.wf_write _ _ _ _ h0 h))

/-! ### The display -/

theorem pixel_flip (d : Display) (r r' : Fin 32) (c c' : Fin 64) :
    (d.flip r c).pixel r' c' = if r' = r ∧ c' = c then !d.pixel r c else d.pixel r' c' := by
  by_cases hr : r' = r
  · subst hr
    by_cases hc : c' = c
    · subst hc; simp [Display.flip, Display.pixel]
    · have : c.val ≠ c'.val := fun h => hc (Fin.ext h.symm)
      simp [Display.flip, Display.pixel, this, hc]
  · have : r.val ≠ r'.val := fun h => hr (Fin.ext h.symm)
    simp [Display.flip, Display.pixel, this, hr]

/-- Two displays with the same pixels are the same. -/
theorem display_ext {d e : Display} (h : ∀ r c, d.pixel r c = e.pixel r c) : d = e := by
  refine Vector.ext fun r hr => Vector.ext fun c hc => ?_
  exact h ⟨r, hr⟩ ⟨c, hc⟩

/-! ### The tick (R208) -/

theorem tick_due (s : State) (h : s.tickCount + 1 = s.cfg.timerDivisor) :
    s.tick.tickCount = 0 ∧ s.tick.dt.toNat = s.dt.toNat - 1 ∧ s.tick.st.toNat = s.st.toNat - 1 := by
  have key : ∀ b : Byte, (if True ∧ b ≠ 0x00#8 then b - 1#8 else b).toNat = b.toNat - 1 := by
    intro b
    by_cases hb : b = 0x00#8
    · subst hb; rfl
    · simp only [true_and, ne_eq, hb, not_false_eq_true, if_true]
      have : b.toNat ≠ 0 := fun h0 => hb (BitVec.eq_of_toNat_eq (by simpa using h0))
      rw [BitVec.toNat_sub]
      simp
      omega
  exact ⟨by simp [State.tick, h], by simpa [State.tick, h] using key s.dt,
    by simpa [State.tick, h] using key s.st⟩

theorem tick_notDue (s : State) (h : s.tickCount + 1 ≠ s.cfg.timerDivisor) :
    s.tick.tickCount = s.tickCount + 1 ∧ s.tick.dt = s.dt ∧ s.tick.st = s.st := by
  simp [State.tick, h]

/-! ### The cycle -/

/-- What a step can do (R171): one of five things. -/
theorem step_cases {s t : State} (h : step s = .next t) :
    (∃ r, s.run = .halted r ∧ t = s) ∨
    (s.run = .running ∧ s.stopIn = true ∧ t = (takeFault .externalStop 0#16 0#13 s).nextInputs) ∨
    (s.run = .running ∧ s.stopIn = false ∧ s.fetch = none ∧
      t = (takeFault .addressOutOfRange 0#16 0x1000#13 s).nextInputs) ∨
    (∃ w e, s.run = .running ∧ s.stopIn = false ∧ s.fetch = some w ∧ decodeWord w = .error e ∧
      t = (takeFault .decodeError w 0#13 s).nextInputs) ∨
    (∃ w i u, s.run = .running ∧ s.stopIn = false ∧ s.fetch = some w ∧ decodeWord w = .ok i ∧
      exec i s = .next u ∧
      ((u.run = .running ∧ t = u.tick.nextInputs) ∨ ((∃ r, u.run = .halted r) ∧ t = u.nextInputs))) := by
  unfold step runCycle at h
  split at h
  · next r hr => cases h; exact .inl ⟨r, hr, rfl⟩
  · next hr =>
    refine .inr ?_
    unfold runningCycle at h
    by_cases hs : s.stopIn = true
    · simp only [hs, if_true, useInputs] at h; cases h; exact .inl ⟨hr, hs, rfl⟩
    · simp only [Bool.not_eq_true] at hs
      simp only [hs, Bool.false_eq_true, if_false] at h
      refine .inr ?_
      cases hf : s.fetch with
      | none => simp only [hf, useInputs] at h; cases h; exact .inl ⟨hr, hs, rfl, rfl⟩
      | some w =>
        refine .inr ?_
        simp only [hf, runWord] at h
        cases hd : decodeWord w with
        | error e => simp only [hd, useInputs] at h; cases h; exact .inl ⟨w, e, hr, hs, rfl, hd, rfl⟩
        | ok i =>
          refine .inr ⟨w, i, ?_⟩
          simp only [hd] at h
          cases he : exec i s with
          | fault f => cases f
          | refused r => simp [he, finishCycle, useInputs] at h
          | next u =>
            refine ⟨u, hr, hs, rfl, hd, rfl, ?_⟩
            simp only [he, finishCycle] at h
            cases hu : u.run with
            | running => simp only [hu, useInputs] at h; cases h; exact .inl ⟨rfl, rfl⟩
            | halted r => simp only [hu, useInputs] at h; cases h; exact .inr ⟨⟨r, rfl⟩, rfl⟩

/-- What an instruction can do, as far as all have it in common: it halts the core and does nothing else,
or it leaves Run, the timers, the configuration and the inputs alone and keeps memory canonical. -/
theorem exec_cases {i : Instr} {s t : State} (h : exec i s = .next t) :
    (∃ c info, t = takeFault c (encode i) info s) ∨
    (KeepsRest s t ∧ (Memory.wf s.cfg s.mem = true → Memory.wf s.cfg t.mem = true)) := by
  cases i with
  | call nnn =>
    simp only [exec, execCall] at h
    split at h
    · cases h; exact .inr ⟨⟨rfl, rfl, rfl, rfl, rfl, rfl, rfl⟩, id⟩
    · cases h; exact .inl ⟨_, _, rfl⟩
  | ret =>
    simp only [exec, execRet] at h
    split at h
    · cases h; exact .inl ⟨_, _, rfl⟩
    · cases h; exact .inr ⟨⟨rfl, rfl, rfl, rfl, rfl, rfl, rfl⟩, id⟩
  | drw x y n =>
    simp only [exec, execDrw] at h
    split at h
    · cases h; exact .inr ⟨⟨rfl, rfl, rfl, rfl, rfl, rfl, rfl⟩, id⟩
    · cases h; exact .inl ⟨_, _, rfl⟩
  | ldF x =>
    simp only [exec, execLdF] at h
    split at h
    · cases h; exact .inl ⟨_, _, rfl⟩
    · cases h; exact .inr ⟨⟨rfl, rfl, rfl, rfl, rfl, rfl, rfl⟩, id⟩
  | ldB x =>
    simp only [exec, execLdB] at h
    split at h
    · next hf => cases h; exact .inr ⟨⟨rfl, rfl, rfl, rfl, rfl, rfl, rfl⟩, wf_storeDigits s _ ((blockFits_iff s 3).mp hf)⟩
    · cases h; exact .inl ⟨_, _, rfl⟩
  | stRegs x =>
    simp only [exec, execStRegs] at h
    split at h
    · next hf =>
      cases h
      refine .inr ⟨?_, wf_storeBlock s _ ((blockFits_iff s _).mp hf)⟩
      rw [storeBlock_frame]
      exact ⟨rfl, rfl, rfl, rfl, rfl, rfl, rfl⟩
    · cases h; exact .inl ⟨_, _, rfl⟩
  | ldRegs x =>
    simp only [exec, execLdRegs] at h
    split at h
    · cases h
      rw [loadBlock_frame]
      exact .inr ⟨⟨rfl, rfl, rfl, rfl, rfl, rfl, rfl⟩, id⟩
    · cases h; exact .inl ⟨_, _, rfl⟩
  | jp | seImm | sneImm | seReg | ldImm | addImm | ldReg | orReg | andReg | xorReg | addReg | subReg
    | ldI | jpV0 | rnd =>
    cases h; exact .inr ⟨⟨rfl, rfl, rfl, rfl, rfl, rfl, rfl⟩, id⟩

end Sys2Proof.Laws.Ops
end

