-- ==== Sys2Proof/Laws/Draw.lean ====
section
/-! SUPPORT. What the loops of the sprite draw leave on the display (43_draw.md R160, R161). -/

namespace Sys2Proof.Laws.Draw

open Sys2Proof Sys2Proof.Machine

/-- Pixel (row, col) is covered by one of the first `k` pixels of a sprite row. -/
def RowCovers (b : Byte) (row : Fin 32) (cx k : Nat) (r : Fin 32) (c : Fin 64) : Prop :=
  r = row ∧ ∃ j, j < k ∧ spriteBit b j = true ∧ c = spriteCol cx j

/-- Pixel (row, col) is covered by one of the first `n` rows of the sprite at I. -/
def SpriteCovers (s : State) (cx cy n : Nat) (r : Fin 32) (c : Fin 64) : Prop :=
  ∃ q, q < n ∧ RowCovers (s.readByte (s.effAddr q)) (spriteRow cy q) cx 8 r c

/-- The 8 columns of a sprite row are distinct (R161). -/
theorem spriteCol_inj {cx j k : Nat} (hj : j < 8) (hk : k < 8) (h : spriteCol cx j = spriteCol cx k) :
    j = k := by
  simp [spriteCol, Fin.ext_iff] at h
  omega

/-- Up to 16 rows of a sprite are distinct (R161). -/
theorem spriteRow_inj {cy q r : Nat} (hq : q < 16) (hr : r < 16) (h : spriteRow cy q = spriteRow cy r) :
    q = r := by
  simp [spriteRow, Fin.ext_iff] at h
  omega

/-- XOR by one image and then by a disjoint one is XOR by their union. -/
theorem xor_xor_disjoint {a p q : Prop} (h : q → ¬ p) : ¬ (¬ (a ↔ p) ↔ q) ↔ ¬ (a ↔ (p ∨ q)) := by
  by_cases hq : q <;> by_cases hp : p <;> by_cases ha : a <;> simp_all

/-- XOR by an image that does not cover a pixel leaves it. -/
theorem xor_uncovered {a p : Prop} (h : ¬ p) : ¬ (a ↔ p) ↔ a := by
  by_cases ha : a <;> simp [ha, h]

theorem drawPixel_disp (row : Fin 32) (col : Fin 64) (bit : Bool) (d : DrawState) (r : Fin 32) (c : Fin 64) :
    ((drawPixel row col bit d).disp.pixel r c = true ↔
      ¬ (d.disp.pixel r c = true ↔ (bit = true ∧ r = row ∧ c = col))) := by
  cases bit with
  | false => simp [drawPixel]
  | true =>
    by_cases h : r = row ∧ c = col
    · obtain ⟨rfl, rfl⟩ := h
      simp [drawPixel, Ops.pixel_flip]
    · simp [drawPixel, Ops.pixel_flip, h]

theorem drawPixel_hit (row : Fin 32) (col : Fin 64) (bit : Bool) (d : DrawState) :
    (drawPixel row col bit d).hit = true ↔ d.hit = true ∨ (bit = true ∧ d.disp.pixel row col = true) := by
  cases bit <;> simp [drawPixel]

/-- One sprite row: each pixel is XORed with the row's image. -/
theorem drawPixels_disp (b : Byte) (row : Fin 32) (cx : Nat) (d : DrawState) (r : Fin 32) (c : Fin 64) :
    ∀ k, k ≤ 8 → ((drawPixels b row cx k d).disp.pixel r c = true ↔
      ¬ (d.disp.pixel r c = true ↔ RowCovers b row cx k r c)) := by
  intro k
  induction k with
  | zero => intro _; simp [drawPixels, RowCovers]
  | succ j ih =>
    intro hk
    have step : RowCovers b row cx (j + 1) r c ↔
        (RowCovers b row cx j r c ∨ (spriteBit b j = true ∧ r = row ∧ c = spriteCol cx j)) := by
      constructor
      · rintro ⟨hr, q, hq, hb, hc⟩
        rcases Nat.lt_succ_iff_lt_or_eq.mp hq with h | rfl
        · exact .inl ⟨hr, q, h, hb, hc⟩
        · exact .inr ⟨hb, hr, hc⟩
      · rintro (⟨hr, q, hq, hb, hc⟩ | ⟨hb, hr, hc⟩)
        · exact ⟨hr, q, by omega, hb, hc⟩
        · exact ⟨hr, j, by omega, hb, hc⟩
    have excl : (spriteBit b j = true ∧ r = row ∧ c = spriteCol cx j) → ¬ RowCovers b row cx j r c := by
      rintro ⟨_, _, hc⟩ ⟨_, q, hq, _, hc'⟩
      exact absurd (spriteCol_inj (by omega) (by omega) (hc'.symm.trans hc)) (by omega)
    rw [drawPixels, drawPixel_disp, ih (by omega), step]
    exact xor_xor_disjoint excl

/-- One sprite row: a collision is a covered pixel that was on. -/
theorem drawPixels_hit (b : Byte) (row : Fin 32) (cx : Nat) (d : DrawState) :
    ∀ k, k ≤ 8 → ((drawPixels b row cx k d).hit = true ↔
      d.hit = true ∨ ∃ r c, d.disp.pixel r c = true ∧ RowCovers b row cx k r c) := by
  intro k
  induction k with
  | zero => intro _; simp [drawPixels, RowCovers]
  | succ j ih =>
    intro hk
    have fresh : ¬ RowCovers b row cx j row (spriteCol cx j) := by
      rintro ⟨_, q, hq, _, hc⟩
      exact absurd (spriteCol_inj (by omega) (by omega) hc) (by omega)
    have old : (drawPixels b row cx j d).disp.pixel row (spriteCol cx j) = true ↔
        d.disp.pixel row (spriteCol cx j) = true := by
      rw [drawPixels_disp b row cx d row (spriteCol cx j) j (by omega)]
      exact xor_uncovered fresh
    rw [drawPixels, drawPixel_hit, ih (by omega), old, or_assoc]
    refine or_congr Iff.rfl ⟨?_, ?_⟩
    · rintro (⟨r, c, hp, hr, q, hq, hb, hc⟩ | ⟨hb, hp⟩)
      · exact ⟨r, c, hp, hr, q, by omega, hb, hc⟩
      · exact ⟨row, spriteCol cx j, hp, rfl, j, by omega, hb, rfl⟩
    · rintro ⟨r, c, hp, hr, q, hq, hb, hc⟩
      rcases Nat.lt_succ_iff_lt_or_eq.mp hq with h | rfl
      · exact .inl ⟨r, c, hp, hr, q, h, hb, hc⟩
      · subst hr hc; exact .inr ⟨hb, hp⟩

/-- The rows of a sprite: each pixel is XORed with the sprite's image. -/
theorem drawRows_disp (s : State) (cx cy : Nat) (d : DrawState) (r : Fin 32) (c : Fin 64) :
    ∀ n, n ≤ 16 → ((drawRows s cx cy n d).disp.pixel r c = true ↔
      ¬ (d.disp.pixel r c = true ↔ SpriteCovers s cx cy n r c)) := by
  intro n
  induction n with
  | zero => intro _; simp [drawRows, SpriteCovers]
  | succ k ih =>
    intro hk
    have step : SpriteCovers s cx cy (k + 1) r c ↔ (SpriteCovers s cx cy k r c ∨
        RowCovers (s.readByte (s.effAddr k)) (spriteRow cy k) cx 8 r c) := by
      constructor
      · rintro ⟨q, hq, h⟩
        rcases Nat.lt_succ_iff_lt_or_eq.mp hq with hlt | rfl
        · exact .inl ⟨q, hlt, h⟩
        · exact .inr h
      · rintro (⟨q, hq, h⟩ | h)
        · exact ⟨q, by omega, h⟩
        · exact ⟨k, by omega, h⟩
    have excl : RowCovers (s.readByte (s.effAddr k)) (spriteRow cy k) cx 8 r c →
        ¬ SpriteCovers s cx cy k r c := by
      rintro ⟨hr, _⟩ ⟨q, hq, hr', _⟩
      exact absurd (spriteRow_inj (by omega) (by omega) (hr'.symm.trans hr)) (by omega)
    rw [drawRows, drawPixels_disp _ _ _ _ _ _ 8 (le_refl 8), ih (by omega), step]
    exact xor_xor_disjoint excl

/-- The rows of a sprite: a collision is a covered pixel that was on. -/
theorem drawRows_hit (s : State) (cx cy : Nat) (d : DrawState) :
    ∀ n, n ≤ 16 → ((drawRows s cx cy n d).hit = true ↔
      d.hit = true ∨ ∃ r c, d.disp.pixel r c = true ∧ SpriteCovers s cx cy n r c) := by
  intro n
  induction n with
  | zero => intro _; simp [drawRows, SpriteCovers]
  | succ k ih =>
    intro hk
    have old : ∀ r c, RowCovers (s.readByte (s.effAddr k)) (spriteRow cy k) cx 8 r c →
        ((drawRows s cx cy k d).disp.pixel r c = true ↔ d.disp.pixel r c = true) := by
      intro r c hcov
      have : ¬ SpriteCovers s cx cy k r c := by
        obtain ⟨hr, _⟩ := hcov
        rintro ⟨q, hq, hr', _⟩
        exact absurd (spriteRow_inj (by omega) (by omega) (hr'.symm.trans hr)) (by omega)
      rw [drawRows_disp s cx cy d r c k (by omega)]
      exact xor_uncovered this
    rw [drawRows, drawPixels_hit _ _ _ _ 8 (le_refl 8), ih (by omega), or_assoc]
    refine or_congr Iff.rfl ⟨?_, ?_⟩
    · rintro (⟨r, c, hp, q, hq, h⟩ | ⟨r, c, hp, h⟩)
      · exact ⟨r, c, hp, q, by omega, h⟩
      · exact ⟨r, c, (old r c h).mp hp, k, by omega, h⟩
    · rintro ⟨r, c, hp, q, hq, h⟩
      rcases Nat.lt_succ_iff_lt_or_eq.mp hq with hlt | rfl
      · exact .inl ⟨r, c, hp, q, hlt, h⟩
      · exact .inr ⟨r, c, (old r c h).mpr hp, h⟩

/-- The loops' coverage is the rule's (R160). -/
theorem spriteCovers_iff (s : State) (x y : RegIdx) (n : BitVec 4) (r : Fin 32) (c : Fin 64) :
    SpriteCovers s (s.spriteX x) (s.spriteY y) n.toNat r c ↔ SpritePixel s x y n r c := by
  simp only [SpriteCovers, RowCovers, SpritePixel, spriteBit, spriteRow, spriteCol, State.spriteX,
    State.spriteY, State.effAddr, Fin.ext_iff, Fin.val_ofNat]
  constructor
  · rintro ⟨q, hq, hr, j, hj, hb, hc⟩; exact ⟨q, j, hq, hj, hr, hc, hb⟩
  · rintro ⟨q, j, hq, hj, hr, hc, hb⟩; exact ⟨q, hq, hr, j, hj, hb, hc⟩

end Sys2Proof.Laws.Draw
end

