-- ==== Sys2Proof/Laws/PerInstr.lean ====
section
/-! SUPPORT. Statements about every instruction as syntax, one lemma per constructor. The family
`OpcodeRow` (LAWS.json): the word of an instruction has the fixed bits of its row of R85. -/

namespace Sys2Proof.Laws.OpcodeRow

open Sys2Proof Sys2Proof.Laws.Word

/-- The word of the instruction matches the row's mask and match: `encode i & mask == match`. -/
def Statement (i : Instr) : Prop := encode i &&& opcodeMask i = opcodeMatch i

theorem append_and {k m : Nat} (a c : BitVec k) (b d : BitVec m) :
    (a ++ b) &&& (c ++ d) = (a &&& c) ++ (b &&& d) := by
  ext j hj
  simp only [BitVec.getElem_and, BitVec.getElem_append]
  split <;> simp

theorem wordNNN_mask (op : BitVec 4) (nnn : Addr) : wordNNN op nnn &&& 0xF000#16 = op ++ 0#12 := by
  have h : (0xF000#16 : BitVec 16) = (0xF#4 : BitVec 4) ++ (0#12 : BitVec 12) := by decide
  have h1 : op &&& 0xF#4 = op := BitVec.and_allOnes
  have h2 : nnn &&& 0#12 = 0#12 := BitVec.and_zero
  rw [wordNNN, h, append_and, h1, h2]

theorem wordXNN_mask (op : BitVec 4) (x : RegIdx) (nn : Byte) :
    wordXNN op x nn &&& 0xF000#16 = op ++ 0#12 := by
  have h : (0xF000#16 : BitVec 16) = ((0xF#4 : BitVec 4) ++ (0#4 : BitVec 4)) ++ (0#8 : BitVec 8) := by
    decide
  have h' : op ++ (0#4 : BitVec 4) ++ (0#8 : BitVec 8) = op ++ (0#12 : BitVec 12) := by
    revert op; decide
  have h1 : op &&& 0xF#4 = op := BitVec.and_allOnes
  have h2 : BitVec.ofFin (w := 4) x &&& 0#4 = 0#4 := BitVec.and_zero
  have h3 : nn &&& 0#8 = 0#8 := BitVec.and_zero
  rw [wordXNN, h, append_and, append_and, h1, h2, h3, h']

theorem wordXNN_maskNN (op : BitVec 4) (x : RegIdx) (nn : Byte) :
    wordXNN op x nn &&& 0xF0FF#16 = op ++ (0#4 : BitVec 4) ++ nn := by
  have h : (0xF0FF#16 : BitVec 16) = ((0xF#4 : BitVec 4) ++ (0#4 : BitVec 4)) ++ (0xFF#8 : BitVec 8) := by
    decide
  have h1 : op &&& 0xF#4 = op := BitVec.and_allOnes
  have h2 : BitVec.ofFin (w := 4) x &&& 0#4 = 0#4 := BitVec.and_zero
  have h3 : nn &&& 0xFF#8 = nn := BitVec.and_allOnes
  rw [wordXNN, h, append_and, append_and, h1, h2, h3]

theorem wordXYN_maskN (op : BitVec 4) (x y : RegIdx) (n : BitVec 4) :
    wordXYN op x y n &&& 0xF00F#16 = op ++ (0#4 : BitVec 4) ++ (0#4 : BitVec 4) ++ n := by
  have h : (0xF00F#16 : BitVec 16) =
      (((0xF#4 : BitVec 4) ++ (0#4 : BitVec 4)) ++ (0#4 : BitVec 4)) ++ (0xF#4 : BitVec 4) := by decide
  have h1 : op &&& 0xF#4 = op := BitVec.and_allOnes
  have h2 : BitVec.ofFin (w := 4) x &&& 0#4 = 0#4 := BitVec.and_zero
  have h3 : BitVec.ofFin (w := 4) y &&& 0#4 = 0#4 := BitVec.and_zero
  have h4 : n &&& 0xF#4 = n := BitVec.and_allOnes
  rw [wordXYN, h, append_and, append_and, append_and, h1, h2, h3, h4]

theorem wordXYN_mask (op : BitVec 4) (x y : RegIdx) (n : BitVec 4) :
    wordXYN op x y n &&& 0xF000#16 = op ++ (0#4 : BitVec 4) ++ (0#4 : BitVec 4) ++ (0#4 : BitVec 4) := by
  have h : (0xF000#16 : BitVec 16) =
      (((0xF#4 : BitVec 4) ++ (0#4 : BitVec 4)) ++ (0#4 : BitVec 4)) ++ (0#4 : BitVec 4) := by decide
  have h1 : op &&& 0xF#4 = op := BitVec.and_allOnes
  have h2 : BitVec.ofFin (w := 4) x &&& 0#4 = 0#4 := BitVec.and_zero
  have h3 : BitVec.ofFin (w := 4) y &&& 0#4 = 0#4 := BitVec.and_zero
  have h4 : n &&& 0#4 = 0#4 := BitVec.and_zero
  rw [wordXYN, h, append_and, append_and, append_and, h1, h2, h3, h4]

theorem jp (nnn : Addr) : Statement (.jp nnn) := wordNNN_mask 0x1#4 nnn
theorem call (nnn : Addr) : Statement (.call nnn) := wordNNN_mask 0x2#4 nnn
theorem ret : Statement .ret := by unfold Statement; decide
theorem seImm (x : RegIdx) (nn : Byte) : Statement (.seImm x nn) := wordXNN_mask 0x3#4 x nn
theorem sneImm (x : RegIdx) (nn : Byte) : Statement (.sneImm x nn) := wordXNN_mask 0x4#4 x nn
theorem seReg (x y : RegIdx) : Statement (.seReg x y) := wordXYN_maskN 0x5#4 x y 0x0#4
theorem ldImm (x : RegIdx) (nn : Byte) : Statement (.ldImm x nn) := wordXNN_mask 0x6#4 x nn
theorem addImm (x : RegIdx) (nn : Byte) : Statement (.addImm x nn) := wordXNN_mask 0x7#4 x nn
theorem ldReg (x y : RegIdx) : Statement (.ldReg x y) := wordXYN_maskN 0x8#4 x y 0x0#4
theorem orReg (x y : RegIdx) : Statement (.orReg x y) := wordXYN_maskN 0x8#4 x y 0x1#4
theorem andReg (x y : RegIdx) : Statement (.andReg x y) := wordXYN_maskN 0x8#4 x y 0x2#4
theorem xorReg (x y : RegIdx) : Statement (.xorReg x y) := wordXYN_maskN 0x8#4 x y 0x3#4
theorem addReg (x y : RegIdx) : Statement (.addReg x y) := wordXYN_maskN 0x8#4 x y 0x4#4
theorem subReg (x y : RegIdx) : Statement (.subReg x y) := wordXYN_maskN 0x8#4 x y 0x5#4
theorem ldI (nnn : Addr) : Statement (.ldI nnn) := wordNNN_mask 0xA#4 nnn
theorem jpV0 (nnn : Addr) : Statement (.jpV0 nnn) := wordNNN_mask 0xB#4 nnn
theorem rnd (x : RegIdx) (nn : Byte) : Statement (.rnd x nn) := wordXNN_mask 0xC#4 x nn
theorem drw (x y : RegIdx) (n : BitVec 4) : Statement (.drw x y n) := wordXYN_mask 0xD#4 x y n
theorem ldF (x : RegIdx) : Statement (.ldF x) := wordXNN_maskNN 0xF#4 x 0x29#8
theorem ldB (x : RegIdx) : Statement (.ldB x) := wordXNN_maskNN 0xF#4 x 0x33#8
theorem stRegs (x : RegIdx) : Statement (.stRegs x) := wordXNN_maskNN 0xF#4 x 0x55#8
theorem ldRegs (x : RegIdx) : Statement (.ldRegs x) := wordXNN_maskNN 0xF#4 x 0x65#8

end Sys2Proof.Laws.OpcodeRow
end

