-- ==== Sys2Proof/Tests/Slice0.lean ====
section
/-! SUPPORT. Tests: a word of every constructor decoded, the checks of WellFormed, one or two single steps
of each instruction, the cycle, and for every obligation with hypotheses a state and operands that meet
them. Expected results are the vectors of 95_test_vectors.md, named in each docstring. -/

namespace Sys2Proof.Tests

open Sys2Proof Sys2Proof.Machine

/-! ### Helpers -/

/-- The configuration of 95_test_vectors.md: `TIMER_DIVISOR` = 8, the rest by default. -/
def cfg8 : Config := { fontBase := 0x000#12, fontData := defaultFont, timerDivisor := 8 }

/-- The reset state under `cfg8`. -/
def s0 : State := State.resetWith cfg8

/-- The outcome is a next state of which `p` holds. -/
def after (o : Host.Outcome State Fault Refusal) (p : State → Bool) : Bool :=
  match o with
  | .next t => p t
  | .fault _ => false
  | .refused _ => false

/-- One step with the word placed at PC. -/
def run (s : State) (w : Word) (p : State → Bool) : Bool := after (step (s.placeWord w)) p

/-- The core is halted with this record. -/
def haltedAs (c : Cause) (w : Word) (pc : Addr) (info : BitVec 13) (t : State) : Bool :=
  t.run == .halted { cause := c, word := w, pc := pc, info := info }

/-- Two V registers set. -/
def v2 (a : RegIdx) (x : Byte) (b : RegIdx) (y : Byte) : State := (s0.setV a x).setV b y

/-- A display with the listed pixels on. -/
def dispOf : List (Fin 32 × Fin 64) → Display
  | [] => s0.disp
  | p :: ps => (dispOf ps).flip p.1 p.2

/-! ### Decoding (30_encoding.md R81, R85; 95_test_vectors.md 2.1) -/

theorem test_fields : opField 0xD12F#16 = 0xD#4 ∧ xField 0xD12F#16 = 1 ∧ yField 0xD12F#16 = 2 ∧
    nField 0xD12F#16 = 0xF#4 ∧ nnField 0xD12F#16 = 0x2F#8 ∧ nnnField 0xD12F#16 = 0x12F#12 := by decide

theorem test_decode_families_1_to_7 :
    decodeWord 0x10EE#16 = .ok (.jp 0x0EE#12) ∧ decodeWord 0x2FFF#16 = .ok (.call 0xFFF#12) ∧
    decodeWord 0x00EE#16 = .ok .ret ∧ decodeWord 0x3FFE#16 = .ok (.seImm 15 0xFE#8) ∧
    decodeWord 0x4301#16 = .ok (.sneImm 3 0x01#8) ∧ decodeWord 0x5120#16 = .ok (.seReg 1 2) ∧
    decodeWord 0x6A37#16 = .ok (.ldImm 10 0x37#8) ∧ decodeWord 0x730A#16 = .ok (.addImm 3 0x0A#8) := by
  decide

theorem test_decode_family_8 :
    decodeWord 0x8AB0#16 = .ok (.ldReg 10 11) ∧ decodeWord 0x8AB1#16 = .ok (.orReg 10 11) ∧
    decodeWord 0x8AB2#16 = .ok (.andReg 10 11) ∧ decodeWord 0x8AB3#16 = .ok (.xorReg 10 11) ∧
    decodeWord 0x8AB4#16 = .ok (.addReg 10 11) ∧ decodeWord 0x8AB5#16 = .ok (.subReg 10 11) := by decide

theorem test_decode_families_A_to_F :
    decodeWord 0xA2F0#16 = .ok (.ldI 0x2F0#12) ∧ decodeWord 0xB204#16 = .ok (.jpV0 0x204#12) ∧
    decodeWord 0xC30F#16 = .ok (.rnd 3 0x0F#8) ∧ decodeWord 0xD12F#16 = .ok (.drw 1 2 0xF#4) ∧
    decodeWord 0xF129#16 = .ok (.ldF 1) ∧ decodeWord 0xF133#16 = .ok (.ldB 1) ∧
    decodeWord 0xF155#16 = .ok (.stRegs 1) ∧ decodeWord 0xF165#16 = .ok (.ldRegs 1) := by decide

theorem test_decode_rejects :
    decodeWord 0x00E0#16 = .error (.illegal 0x00E0#16) ∧ decodeWord 0x01EE#16 = .error (.illegal 0x01EE#16) ∧
    decodeWord 0x5121#16 = .error (.illegal 0x5121#16) ∧ decodeWord 0x8AB6#16 = .error (.illegal 0x8AB6#16) ∧
    decodeWord 0x9120#16 = .error (.illegal 0x9120#16) ∧ decodeWord 0xE19E#16 = .error (.illegal 0xE19E#16) ∧
    decodeWord 0xF11E#16 = .error (.illegal 0xF11E#16) ∧ decodeBytes [0x60#8] = .error .truncated := by
  decide

/-- S12: memory[0x200] = 0xA2, memory[0x201] = 0xF0 is the word 0xA2F0, and the reverse order is illegal. -/
theorem test_decode_big_endian : decodeBytes [0xA2#8, 0xF0#8, 0x11#8] = .ok (.ldI 0x2F0#12, [0x11#8]) ∧
    decodeBytes [0xF0#8, 0xA2#8] = .error (.illegal 0xF0A2#16) := by decide

theorem test_encode_words : encode (.drw 1 2 0xF#4) = 0xD12F#16 ∧ encode (.subReg 10 11) = 0x8AB5#16 ∧
    encode (.seImm 3 0x2A#8) = 0x332A#16 ∧ encode (.call 0x456#12) = 0x2456#16 ∧
    encode (.ldRegs 2) = 0xF265#16 := by decide

/-! ### WellFormed (00_scope.md R6, 60_exceptions.md R209) -/

theorem test_wellFormed_accepts : cfg8.wellFormed = true ∧
    { cfg8 with fontBase := 0x1B0#12, timerDivisor := 1 }.wellFormed = true := by decide

theorem test_wellFormed_refuses_fontBase : { cfg8 with fontBase := 0x1B1#12 }.wellFormed = false := by decide

theorem test_wellFormed_refuses_divisor : { cfg8 with timerDivisor := 0 }.wellFormed = false := by decide

theorem test_divisorOfClock : Config.divisorOfClock 600 = 10 ∧ Config.divisorOfClock 540 = 9 ∧
    Config.divisorOfClock 500 = 8 ∧ Config.divisorOfClock 59 = 1 ∧ Config.divisorOfClock 0 = 1 := by decide

/-! ### Control transfer (95_test_vectors.md 2.2) -/

/-- F1. -/
theorem test_jp : run s0 0x1ABC#16 (fun t => t.pc == 0xABC#12 && t.tickCount == 1) = true := by decide

/-- F5. -/
theorem test_call_sixteenth : run { s0 with pc := 0x234#12, sp := 15 } 0x2456#16
    (fun t => t.pc == 0x456#12 && t.sp == 16 && t.stack[15] == 0x234#12) = true := by decide

/-- F6. -/
theorem test_call_overflow : run { s0 with pc := 0x234#12, sp := 16 } 0x2456#16
    (fun t => haltedAs .stackOverflow 0x2456#16 0x234#12 16#13 t && t.pc == 0x234#12 && t.sp == 16) = true := by
  decide

/-- F11. -/
theorem test_ret : run { s0 with pc := 0x500#12, sp := 3, stack := s0.stack.set 2 0x420#12 } 0x00EE#16
    (fun t => t.pc == 0x422#12 && t.sp == 2 && t.stack[2] == 0x420#12) = true := by decide

/-- F10. -/
theorem test_ret_underflow : run s0 0x00EE#16
    (fun t => haltedAs .stackUnderflow 0x00EE#16 0x200#12 0#13 t && t.tickCount == 0) = true := by decide

/-- F12 and F14: a taken and an untaken skip, both wrapping. -/
theorem test_seImm :
    run { s0.setV 3 0x42#8 with pc := 0xFFC#12 } 0x3342#16 (fun t => t.pc == 0x000#12) = true ∧
    run { s0.setV 3 0x42#8 with pc := 0xFFE#12 } 0x3343#16 (fun t => t.pc == 0x000#12) = true := by decide

/-- F16 and F17. -/
theorem test_sneImm : run s0 0x4300#16 (fun t => t.pc == 0x202#12) = true ∧
    run s0 0x43FF#16 (fun t => t.pc == 0x204#12) = true := by decide

/-- F18 and F19. -/
theorem test_seReg : run (v2 1 7#8 2 7#8) 0x5120#16 (fun t => t.pc == 0x204#12) = true ∧
    run (v2 1 7#8 2 8#8) 0x5120#16 (fun t => t.pc == 0x202#12) = true := by decide

/-- F22. -/
theorem test_jpV0_wraps : run (s0.setV 0 0xFF#8) 0xBFFF#16
    (fun t => t.pc == 0x0FE#12 && t.getV 15 == 0x00#8) = true := by decide

/-! ### Arithmetic and logic (95_test_vectors.md 1.1, 2.3) -/

/-- S11 and A1. -/
theorem test_ldImm : run s0 0x6005#16 (fun t => t.getV 0 == 5#8 && t.pc == 0x202#12) = true ∧
    run (s0.setV 15 1#8) 0x6FFF#16 (fun t => t.getV 15 == 0xFF#8) = true := by decide

/-- S2 and A4. -/
theorem test_addImm :
    run (s0.setV 3 250#8) 0x730A#16 (fun t => t.getV 3 == 4#8 && t.getV 15 == 0#8) = true ∧
    run (s0.setV 15 0xFF#8) 0x7F01#16 (fun t => t.getV 15 == 0#8) = true := by decide

/-- A5. -/
theorem test_ldReg : run (v2 0 1#8 1 0xAB#8) 0x8010#16
    (fun t => t.getV 0 == 0xAB#8 && t.getV 1 == 0xAB#8) = true := by decide

/-- A7. -/
theorem test_orReg : run ((v2 0 0xCA#8 1 0xAC#8).setV 15 0x55#8) 0x8011#16
    (fun t => t.getV 0 == 0xEE#8 && t.getV 15 == 0x55#8) = true := by decide

/-- A8. -/
theorem test_andReg : run ((v2 0 0xCA#8 1 0xAC#8).setV 15 0x55#8) 0x8012#16
    (fun t => t.getV 0 == 0x88#8 && t.getV 15 == 0x55#8) = true := by decide

/-- A9. -/
theorem test_xorReg : run ((v2 0 0xCA#8 1 0xAC#8).setV 15 0x55#8) 0x8013#16
    (fun t => t.getV 0 == 0x66#8 && t.getV 15 == 0x55#8) = true := by decide

/-- A17: the old VF is the operand, then VF gets the carry. -/
theorem test_addReg_flag_as_source : run (v2 0 200#8 15 100#8) 0x80F4#16
    (fun t => t.getV 0 == 44#8 && t.getV 15 == 1#8) = true := by decide

/-- A15: the result overwrites the flag. -/
theorem test_addReg_flag_as_destination : run (v2 15 200#8 1 100#8) 0x8F14#16
    (fun t => t.getV 15 == 44#8) = true := by decide

/-- S6 and A20. -/
theorem test_subReg :
    run ((v2 0 3#8 1 10#8).setV 15 1#8) 0x8015#16 (fun t => t.getV 0 == 249#8 && t.getV 15 == 0#8) = true ∧
    run (v2 0 5#8 1 5#8) 0x8015#16 (fun t => t.getV 0 == 0#8 && t.getV 15 == 1#8) = true := by decide

/-- A25. -/
theorem test_subReg_flag_as_destination : run (v2 15 3#8 1 10#8) 0x8F15#16
    (fun t => t.getV 15 == 249#8) = true := by decide

/-- A31. -/
theorem test_rnd : run { s0.setV 15 1#8 with inputs := [{ rnd := 0xA7#8, stop := false }] } 0xCF3C#16
    (fun t => t.getV 15 == 0x24#8 && t.inputs == []) = true := by decide

/-! ### Index register and memory (95_test_vectors.md 2.4) -/

/-- M1. -/
theorem test_ldI : run { s0 with i := 0x123#12 } 0xAFFF#16
    (fun t => t.i == 0xFFF#12 && t.pc == 0x202#12) = true := by decide

/-- M4. -/
theorem test_ldF : run ({ s0 with cfg := { cfg8 with fontBase := 0x050#12 } }.setV 3 0xA#8) 0xF329#16
    (fun t => t.i == 0x082#12 && t.readByte 0x082 == 0xF0#8 && t.readByte 0x083 == 0x90#8 &&
      t.readByte 0x086 == 0x90#8) = true := by decide

/-- M5. -/
theorem test_ldF_invalid : run ({ s0 with i := 0x123#12 }.setV 0 0x10#8) 0xF029#16
    (fun t => haltedAs .invalidOperand 0xF029#16 0x200#12 0x10#13 t && t.i == 0x123#12) = true := by decide

/-- M8: the last legal I. -/
theorem test_ldB : run ({ s0 with i := 0xFFD#12 }.setV 0 255#8) 0xF033#16
    (fun t => t.readByte 0xFFD == 2#8 && t.readByte 0xFFE == 5#8 && t.readByte 0xFFF == 5#8) = true := by
  decide

/-- M9: no partial write. -/
theorem test_ldB_outOfRange : run (({ s0 with i := 0xFFE#12 }.setV 0 255#8).writeByte 0xFFE 0xAA#8) 0xF033#16
    (fun t => haltedAs .addressOutOfRange 0xF033#16 0x200#12 0x1000#13 t && t.readByte 0xFFE == 0xAA#8) =
    true := by decide

/-- M11. -/
theorem test_stRegs : run ({ v2 0 0x11#8 1 0x22#8 with i := 0x300#12 }.setV 2 0x33#8) 0xF155#16
    (fun t => t.readByte 0x300 == 0x11#8 && t.readByte 0x301 == 0x22#8 && t.readByte 0x302 == 0#8 &&
      t.i == 0x300#12) = true := by decide

/-- M13. -/
theorem test_stRegs_outOfRange :
    run ({ v2 0 0x77#8 1 0x88#8 with i := 0xFFF#12 }.writeByte 0xFFF 0xBB#8) 0xF155#16
    (fun t => haltedAs .addressOutOfRange 0xF155#16 0x200#12 0x1000#13 t && t.readByte 0xFFF == 0xBB#8) =
    true := by decide

/-- M18: the font as data; V[10] is the first byte of glyph "2", VF the first of glyph "3". -/
theorem test_ldRegs_font : run s0 0xFF65#16
    (fun t => t.getV 0 == 0xF0#8 && t.getV 6 == 0x60#8 && t.getV 10 == 0xF0#8 && t.getV 15 == 0xF0#8 &&
      t.i == 0#12) = true := by decide

/-- M17. -/
theorem test_ldRegs_outOfRange :
    run ({ v2 0 1#8 1 2#8 with i := 0xFFF#12 }.writeByte 0xFFF 0xBB#8) 0xF165#16
    (fun t => haltedAs .addressOutOfRange 0xF165#16 0x200#12 0x1000#13 t && t.getV 0 == 1#8 &&
      t.getV 1 == 2#8) = true := by decide

/-! ### Draw (95_test_vectors.md 2.5) -/

/-- D2: the right edge wraps. -/
theorem test_drw_wraps : run ({ v2 0 60#8 1 5#8 with i := 0x300#12 }.writeByte 0x300 0xA5#8) 0xD011#16
    (fun t => (t.disp.pixel 5 60 && t.disp.pixel 5 62 && t.disp.pixel 5 1 && t.disp.pixel 5 3) &&
      !(t.disp.pixel 5 61 || t.disp.pixel 5 63 || t.disp.pixel 5 0 || t.disp.pixel 5 2) &&
      t.getV 15 == 0#8) = true := by decide

/-- D4: two pixels go off, two on. -/
theorem test_drw_collides :
    run ({ s0.setV 0 2#8 with
        i := 0x300#12, disp := dispOf [(0, 0), (0, 1), (0, 2), (0, 3)] }.writeByte 0x300 0xF0#8) 0xD011#16
    (fun t => (t.disp.pixel 0 0 && t.disp.pixel 0 1 && t.disp.pixel 0 4 && t.disp.pixel 0 5) &&
      !(t.disp.pixel 0 2 || t.disp.pixel 0 3 || t.disp.pixel 0 6) && t.getV 15 == 1#8) = true := by decide

/-! ### The cycle (95_test_vectors.md 2.7 to 2.9) -/

/-- K3. -/
theorem test_tick_due : run { s0 with tickCount := 7, dt := 5#8, st := 3#8 } 0x6000#16
    (fun t => t.tickCount == 0 && t.dt == 4#8 && t.st == 2#8) = true := by decide

/-- K4: no wrap below 0, and the sound ends. -/
theorem test_tick_zero : run { s0 with tickCount := 7, dt := 0#8, st := 1#8 } 0x6000#16
    (fun t => t.dt == 0#8 && t.st == 0#8 && !t.soundOn) = true := by decide

/-- K8: a faulting cycle does not tick. -/
theorem test_fault_no_tick : run { s0 with tickCount := 7, dt := 5#8 } 0x0000#16
    (fun t => haltedAs .decodeError 0x0000#16 0x200#12 0#13 t && t.tickCount == 7 && t.dt == 5#8) = true := by
  decide

/-- K9: the stop request goes before the fetch. -/
theorem test_stop : after (step { s0 with tickCount := 7, inputs := [{ rnd := 0#8, stop := true }] })
    (fun t => haltedAs .externalStop 0x0000#16 0x200#12 0#13 t && t.tickCount == 7) = true := by decide

/-- F3: the fetch at 0xFFF. -/
theorem test_fetch_fault : after (step { s0 with pc := 0xFFF#12 })
    (fun t => haltedAs .addressOutOfRange 0x0000#16 0xFFF#12 0x1000#13 t && t.pc == 0xFFF#12) = true := by
  decide

/-- R190, R170: the outputs of a halted core. -/
theorem test_outputs : (takeFault .stackOverflow 0x2456#16 16#13 s0).haltRecordOut =
    some (2#3, 0x2456#16, 0x200#12, 16#13) ∧ s0.haltedOut = false ∧
    (takeFault .externalStop 0#16 0#13 s0).haltedOut = true ∧
    { s0 with disp := dispOf [(1, 2)] }.dispOut 66 = true := by decide

/-- L6: the font table at the largest FONT_BASE. -/
theorem test_font_at_top : resetByte { cfg8 with fontBase := 0x1B0#12 } 0x1AF = 0#8 ∧
    resetByte { cfg8 with fontBase := 0x1B0#12 } 0x1B0 = 0xF0#8 ∧
    resetByte { cfg8 with fontBase := 0x1B0#12 } 0x1FF = 0x80#8 ∧
    resetByte { cfg8 with fontBase := 0x1B0#12 } 0x200 = 0#8 := by decide

/-- R170: the ROM-load port writes 0x200 to 0xFFF and nothing else. -/
theorem test_romWrite : s0.romWrite 0x1FF 1#8 = none ∧ s0.romWrite 0x1000 1#8 = none ∧
    s0.romWrite 0x200 1#8 = some (s0.writeByte 0x200 1#8) := by decide

/-- Writing the byte an unlisted address reads as removes the entry. -/
theorem test_memory_canonical : ((s0.writeByte 0x300 7#8).writeByte 0x300 0#8).mem = [] ∧
    ((s0.writeByte 0x000 0#8).writeByte 0x000 0xF0#8).mem = [] ∧
    ((s0.writeByte 0x301 7#8).writeByte 0x300 8#8).mem = [(0x300, 8#8), (0x301, 7#8)] := by decide

/-! ### The host's hooks -/

theorem test_decodeTableWord : decodeTableWord 16 0xD12F = some (.drw 1 2 0xF#4) ∧
    decodeTableWord 16 0x5121 = none := by decide

/-- After reset the placed word is the first instruction run. -/
theorem test_withFetchWord : after (step (State.reset.withFetchWord 16 0x6A37))
    (fun t => t.getV 10 == 0x37#8 && t.pc == 0x202#12) = true := by decide

/-! ### Witnesses: for each obligation with hypotheses, a state and operands that meet them, each clause at
a boundary of its range -/

/-- EncodeDecodeRoundTrip, RowsMatchByMask. -/
theorem test_meets_decoded : decodeWord 0xFF65#16 = .ok (.ldRegs 15) ∧
    0xFF65#16 &&& opcodeMask (.ldRegs 0) = opcodeMatch (.ldRegs 0) ∧
    ¬ 0xFF64#16 &&& opcodeMask (.ldRegs 0) = opcodeMatch (.ldRegs 0) := by decide

/-- IllegalWordsAreTheTable: the ends of each row of R86. -/
theorem test_meets_illegal : (∀ w ∈ [0x0000#16, 0x00ED#16, 0x00EF#16, 0x0FFF#16, 0x5001#16, 0x5FFF#16,
    0x8006#16, 0x8FFF#16, 0x9000#16, 0x9FFF#16, 0xE000#16, 0xEFFF#16, 0xF000#16, 0xF028#16, 0xFFFF#16],
    IllegalWord w) ∧
    (∀ w ∈ [0x00EE#16, 0x1000#16, 0x4FFF#16, 0x5000#16, 0x5FF0#16, 0x8000#16, 0x8FF5#16, 0xA000#16,
      0xDFFF#16, 0xF029#16, 0xFF33#16, 0xF055#16, 0xFF65#16], ¬ IllegalWord w) := by
  simp [IllegalWord]

/-- CallPushesItsAddress, CallThenReturnResumes, WhereInstructionsFault: SP = 15 and SP = 16. -/
theorem test_meets_call : ({ s0 with sp := 15 } : State).sp.val ≠ 16 ∧
    ({ s0 with sp := 16 } : State).sp.val = 16 := by decide

/-- ReturnGoesPastCall, WhereInstructionsFault: SP = 1 and SP = 0. -/
theorem test_meets_ret : ({ s0 with sp := 1 } : State).sp.val ≠ 0 ∧ s0.sp.val = 0 ∧
    (0 : Fin 16).val + 1 = ({ s0 with sp := 1 } : State).sp.val := by decide

/-- SkipIfEqualImmediate, SkipIfDiffersImmediate, SkipIfEqualRegisters: both outcomes. -/
theorem test_meets_skip : (s0.setV 15 0xFF#8).getV 15 = 0xFF#8 ∧ (s0.setV 15 0xFF#8).getV 15 ≠ 0xFE#8 ∧
    (v2 1 7#8 2 7#8).getV 1 = (v2 1 7#8 2 7#8).getV 2 ∧
    (v2 1 7#8 2 8#8).getV 1 ≠ (v2 1 7#8 2 8#8).getV 2 ∧
    (0x5000 ≤ (0x500F#16).toNat ∧ (0x500F#16).toNat ≤ 0x5FFF ∧ (0x500F#16).toNat % 16 ≠ 0) := by decide

/-- CopyRegister (x = y), AddSetsCarry and SubtractSetsNoBorrow (x not F). -/
theorem test_meets_alu : (15 : RegIdx) = 15 ∧ (14 : RegIdx) ≠ vfIdx := by decide

/-- RandomIsMaskedInput: a bit outside the mask, and a submask. -/
theorem test_meets_rnd : (0xFE#8).getLsbD 0 = false ∧ 0x24#8 &&& 0x3C#8 = 0x24#8 := by decide

/-- FontAddressOfDigit, WhereInstructionsFault: digits 0xF and 0x10. -/
theorem test_meets_font : s0.cfg.wellFormed = true ∧ ((s0.setV 0 0xF#8).getV 0).toNat ≤ 0xF ∧
    ((s0.setV 0 0x10#8).getV 0).toNat > 0xF := by decide

/-- BcdStoresThreeDigits, WhereInstructionsFault: I = 0xFFD and I = 0xFFE. -/
theorem test_meets_bcd : ({ s0 with i := 0xFFD#12 } : State).i.toNat + 2 ≤ 0xFFF ∧
    ({ s0 with i := 0xFFE#12 } : State).i.toNat + 2 > 0xFFF := by decide

/-- StoreRegistersBlock, LoadRegistersBlock, StoreThenLoadRestores, WhereInstructionsFault: I + x = 0xFFF and
0x1000, a register of the block and one above it. -/
theorem test_meets_block : ({ s0 with i := 0xFF1#12 } : State).i.toNat + (14 : RegIdx).val ≤ 0xFFF ∧
    ({ s0 with i := 0xFF2#12 } : State).i.toNat + (14 : RegIdx).val > 0xFFF ∧
    (14 : RegIdx).val ≤ (14 : RegIdx).val ∧ (14 : RegIdx).val < (15 : RegIdx).val := by decide

/-- DrawXorsSpriteImage, WhereInstructionsFault: n = 0 and n = 1 at I = 0xFFF, and n = 2, which faults. -/
theorem test_meets_draw : (0#4).toNat = 0 ∧
    ({ s0 with i := 0xFFF#12 } : State).i.toNat + (1#4).toNat - 1 ≤ 0xFFF ∧
    ((2#4).toNat ≠ 0 ∧ ({ s0 with i := 0xFFF#12 } : State).i.toNat + (2#4).toNat - 1 > 0xFFF) := by decide

/-- A sprite of one byte 0x80 at I = 0x300, over the pixel (0, 0). -/
def sprite80 : State := { s0 with i := 0x300#12 }.writeByte 0x300 0x80#8

theorem test_sprite_covers : SpritePixel sprite80 0 1 1#4 0 0 :=
  ⟨0, 0, by decide, by decide, by decide, by decide, by decide⟩

/-- DrawXorsSpriteImage: a covered pixel that is on, and (no row drawn) no covered pixel. -/
theorem test_meets_collision :
    (∃ row col, ({ sprite80 with disp := dispOf [(0, 0)] } : State).disp.pixel row col = true ∧
      SpritePixel { sprite80 with disp := dispOf [(0, 0)] } 0 1 1#4 row col) ∧
    ¬ ∃ row col, sprite80.disp.pixel row col = true ∧ SpritePixel sprite80 0 1 0#4 row col :=
  ⟨⟨0, 0, by decide, test_sprite_covers⟩, fun ⟨_, _, _, _, _, h, _⟩ => absurd h (Nat.not_lt_zero _)⟩

/-- DrawTwiceRestoresDisplay, SecondDrawAlwaysCollides: the hypotheses met. -/
theorem test_meets_draw_twice : ∃ t u, sprite80.i.toNat + (1#4).toNat ≤ 0x1000 ∧
    exec (.drw 0 1 1#4) sprite80 = .next t ∧ t.getV 0 = sprite80.getV 0 ∧ t.getV 1 = sprite80.getV 1 ∧
    exec (.drw 0 1 1#4) t = .next u ∧ (∃ row col, SpritePixel sprite80 0 1 1#4 row col) ∧
    ∃ row col, sprite80.disp.pixel row col = false ∧ SpritePixel sprite80 0 1 1#4 row col :=
  ⟨_, _, by decide, rfl, rfl, rfl, rfl, ⟨0, 0, test_sprite_covers⟩, ⟨0, 0, by decide, test_sprite_covers⟩⟩

/-- The one pixel that `sprite80` covers is (0, 0). -/
theorem test_sprite_covers_only (row : Fin 32) (col : Fin 64)
    (h : SpritePixel { sprite80 with disp := dispOf [(0, 0)] } 0 1 1#4 row col) : row = 0 ∧ col = 0 := by
  obtain ⟨r, j, hr, hj, hrow, hcol, hbit⟩ := h
  have hr0 : r = 0 := Nat.lt_one_iff.mp hr
  subst hr0
  have hj0 : ∀ k < 8, (0x80#8).getLsbD (7 - k) = true → k = 0 := by decide
  have hb : ({ sprite80 with disp := dispOf [(0, 0)] } : State).readByte 0x300 = 0x80#8 := by decide
  have h0 : j = 0 := hj0 j hj (hb ▸ hbit)
  subst h0
  exact ⟨Fin.ext hrow, Fin.ext hcol⟩

/-- DrawTwiceRestoresDisplay, its clause without a covered pixel that was off; SecondDrawAlwaysCollides:
the same state, with its hypotheses met and VF = 0 after the second draw. -/
theorem test_meets_draw_twice_all_on : ∃ t u,
    exec (.drw 0 1 1#4) { sprite80 with disp := dispOf [(0, 0)] } = .next t ∧
    t.getV 0 = sprite80.getV 0 ∧ t.getV 1 = sprite80.getV 1 ∧ exec (.drw 0 1 1#4) t = .next u ∧
    (∃ row col, SpritePixel { sprite80 with disp := dispOf [(0, 0)] } 0 1 1#4 row col) ∧
    (¬ ∃ row col, ({ sprite80 with disp := dispOf [(0, 0)] } : State).disp.pixel row col = false ∧
      SpritePixel { sprite80 with disp := dispOf [(0, 0)] } 0 1 1#4 row col) ∧ u.getV 15 = 0#8 := by
  refine ⟨_, _, rfl, rfl, rfl, rfl, ⟨0, 0, test_sprite_covers⟩, ?_, by decide⟩
  rintro ⟨row, col, hoff, hcov⟩
  obtain ⟨rfl, rfl⟩ := test_sprite_covers_only row col hcov
  exact absurd hoff (by decide)

/-- RegisterWritersAreTheTable, OnlyTwoInstructionsWriteI, OnlyDrawWritesDisplay,
OnlyCallAndReturnTouchStack, OnlyStoresWriteMemory, NoInstructionTouchesTimers, SequentialAdvance,
OnlyRandomReadsInput: the next state of `LD V3, 5` at PC = 0xFFE. -/
theorem test_meets_exec : ∃ t, exec (.ldImm 3 5#8) { s0 with pc := 0xFFE#12 } = .next t ∧
    ¬ writesV (.ldImm 3 5#8) 4 ∧ (∀ nnn, Instr.ldImm 3 5#8 ≠ .ldI nnn) ∧ (∀ x, Instr.ldImm 3 5#8 ≠ .ldF x) ∧
    (∀ x y n, Instr.ldImm 3 5#8 ≠ .drw x y n) ∧ (∀ nnn, Instr.ldImm 3 5#8 ≠ .call nnn) ∧
    Instr.ldImm 3 5#8 ≠ .ret ∧ (∀ x, Instr.ldImm 3 5#8 ≠ .ldB x) ∧ (∀ x, Instr.ldImm 3 5#8 ≠ .stRegs x) ∧
    (∀ x nn, Instr.ldImm 3 5#8 ≠ .rnd x nn) ∧ ¬ isFlow (.ldImm 3 5#8) ∧
    ({ s0 with pc := 0xFFE#12 } : State).run = .running ∧ t.run = .running :=
  ⟨_, rfl, by unfold writesV; decide, nofun, nofun, nofun, nofun, nofun, nofun, nofun, nofun,
    by unfold isFlow; decide, rfl, rfl⟩

/-- OnlyStoresWriteMemory: the two storing forms have a next state. -/
theorem test_meets_store : (∃ t, exec (.ldB 0) s0 = .next t) ∧ ∃ t, exec (.stRegs 15) s0 = .next t :=
  ⟨⟨_, rfl⟩, ⟨_, rfl⟩⟩

/-- StepRunsDecodedInstruction, at the last address that can be fetched. -/
theorem test_meets_step : (({ s0 with pc := 0xFFE#12 } : State).placeWord 0x6005#16).run = .running ∧
    (({ s0 with pc := 0xFFE#12 } : State).placeWord 0x6005#16).stopIn = false ∧
    (({ s0 with pc := 0xFFE#12 } : State).placeWord 0x6005#16).pc.toNat + 1 ≤ 0xFFF ∧
    decodeBytes [(({ s0 with pc := 0xFFE#12 } : State).placeWord 0x6005#16).readByte 0xFFE,
      (({ s0 with pc := 0xFFE#12 } : State).placeWord 0x6005#16).readByte 0xFFF] =
      .ok (.ldImm 0 5#8, []) := by decide

/-- HaltedStepChangesNothing, StopRequestHalts, FetchBeyondTopHalts. -/
theorem test_meets_events : (takeFault .externalStop 0#16 0#13 s0).run =
      .halted { cause := .externalStop, word := 0#16, pc := 0x200#12, info := 0#13 } ∧
    (s0.run = .running ∧ ({ s0 with inputs := [⟨0#8, true⟩] } : State).stopIn = true) ∧
    (s0.run = .running ∧ s0.stopIn = false ∧ ({ s0 with pc := 0xFFF#12 } : State).pc = 0xFFF#12) := by
  decide

/-- IllegalWordHalts, HaltingCycleIsPrecise, HaltRecordIsTheTableRow: the cycle after reset with no ROM. -/
theorem test_meets_illegal_fetch : s0.run = .running ∧ s0.stopIn = false ∧ s0.fetch = some 0x0000#16 ∧
    IllegalWord 0x0000#16 ∧ ∃ t, step s0 = .next t ∧
      t.run = .halted { cause := .decodeError, word := 0x0000#16, pc := 0x200#12, info := 0#13 } :=
  ⟨by decide, by decide, by decide, .inl (by decide), _, rfl, by decide⟩

/-- HaltRecordIsTheTableRow: a running state that halts with each other cause. -/
theorem test_meets_causes :
    run { s0 with sp := 16 } 0x2000#16 (haltedAs .stackOverflow 0x2000#16 0x200#12 16#13) = true ∧
    run s0 0x00EE#16 (haltedAs .stackUnderflow 0x00EE#16 0x200#12 0#13) = true ∧
    run (s0.setV 1 0x10#8) 0xF129#16 (haltedAs .invalidOperand 0xF129#16 0x200#12 0x10#13) = true ∧
    after (step { s0 with pc := 0xFFF#12 }) (haltedAs .addressOutOfRange 0#16 0xFFF#12 0x1000#13) = true ∧
    run { s0 with i := 0xFFF#12 } 0xD002#16 (haltedAs .addressOutOfRange 0xD002#16 0x200#12 0x1000#13) = true ∧
    after (step { s0 with inputs := [⟨0#8, true⟩] }) (haltedAs .externalStop 0#16 0x200#12 0#13) = true := by
  decide

/-- CompletedCycleTicks, StepKeepsInvariant, TimersNeverIncrease: a completed cycle, the tick due or not. -/
theorem test_meets_tick :
    (∃ t, step (({ s0 with tickCount := 7 } : State).placeWord 0x1200#16) = .next t ∧ t.run = .running) ∧
    (({ s0 with tickCount := 7 } : State).placeWord 0x1200#16).tickCount + 1 = cfg8.timerDivisor ∧
    (({ s0 with tickCount := 6 } : State).placeWord 0x1200#16).tickCount + 1 ≠ cfg8.timerDivisor :=
  ⟨⟨_, rfl, rfl⟩, by decide, by decide⟩

/-- A state about to run the word at 0x200, with I given. -/
def storing (i : Addr) (w : Word) : State := ({ s0 with i := i } : State).placeWord w

/-- StoreSeenByNextFetch: each form at the last I it may have and over the next instruction, where the
new PC can be fetched, and at 0xFFD, from where it cannot. -/
theorem test_meets_store_fetch :
    ((storing 0x201#12 0xF133#16).run = .running ∧ (storing 0x201#12 0xF133#16).stopIn = false ∧
      (storing 0x201#12 0xF133#16).fetch = some (encode (.ldB 1)) ∧
      (storing 0xFFD#12 0xF133#16).fetch = some (encode (.ldB 1)) ∧
      (storing 0xFFD#12 0xF133#16).i.toNat + 2 ≤ 0xFFF) ∧
    ((storing 0x202#12 0xF155#16).run = .running ∧ (storing 0x202#12 0xF155#16).stopIn = false ∧
      (storing 0x202#12 0xF155#16).fetch = some (encode (.stRegs 1)) ∧
      (storing 0xFFE#12 0xF155#16).fetch = some (encode (.stRegs 1)) ∧
      (storing 0xFFE#12 0xF155#16).i.toNat + (1 : RegIdx).val ≤ 0xFFF) ∧
    (storing 0x202#12 0xF155#16).nextPC ≠ 0xFFF#12 ∧
    ({ s0 with pc := 0xFFD#12 } : State).nextPC = 0xFFF#12 := by decide

/-- R61: `FX33` at 0x200 with I = 0x201 stores over its own low byte and the next word, which the next
fetch reads as its tens and ones: 0x0507 for 157. -/
theorem test_store_seen_digits : after (step ((storing 0x201#12 0xF133#16).setV 1 157#8))
    (fun t => t.readByte 0x201 == 1#8 && t.fetch == some 0x0507#16) = true := by decide

/-- R61: `FX55` that stores only V0 over the low byte of the next word. -/
theorem test_store_seen_half : after (step (((storing 0x203#12 0xF055#16).setV 0 0xEE#8).writeByte 0x202 0x12#8))
    (fun t => t.fetch == some 0x12EE#16) = true := by decide

/-- DeadStackEntriesUnobservable: SP = 1, entry 0 alive and alike, entry 1 dead and different. -/
theorem test_meets_dead : AgreeButDead { s0 with sp := 1 } { s0 with sp := 1, stack := s0.stack.set 1 5#12 } ∧
    ∃ t, step ({ s0 with sp := 1 } : State) = .next t :=
  ⟨⟨rfl, by decide⟩, _, rfl⟩

/-- ByteWriteChangesOneCell: both clauses, 0xFFF and 0x1000. -/
theorem test_meets_byte : (s0.memWrite 0xFFF 1#8).isSome = true ∧ s0.memWrite 0x1000 1#8 = none ∧
    s0.memRead 0x1000 = none := by decide

/-- RomLoadPlacesImage: the largest ROM and one byte more. -/
theorem test_meets_rom : (List.replicate 3584 (0x12#8 : Byte)).length ≤ 3584 ∧
    (List.replicate 3585 (0x12#8 : Byte)).length > 3584 := by
  rw [List.length_replicate, List.length_replicate]; exact ⟨Nat.le_refl _, Nat.lt_succ_self _⟩

/-- EmptyRomHaltsAtEntry: a well-formed configuration, no inputs or one without a stop. -/
theorem test_meets_empty_rom : cfg8.wellFormed = true ∧ (∀ inp ∈ ([] : List CycleInput), inp.stop = false) ∧
    ∀ inp ∈ [({ rnd := 7#8, stop := false } : CycleInput)], inp.stop = false := by decide

/-- StepKeepsInvariant, ResetMeetsInvariant: the reset state meets the invariant and has a step. -/
theorem test_meets_inv : s0.Inv ∧ ∃ t, step s0 = .next t := ⟨⟨by decide, by decide, by decide⟩, _, rfl⟩

/-- ReachableStatesMeetInvariant: a launched state, and the state after its first cycle. -/
theorem test_meets_reachable : ∃ s t, Reachable s ∧ step s = .next t ∧ Reachable t :=
  ⟨s0, _, .launched cfg8 [] [] s0 (by decide) rfl, rfl,
    .stepped s0 _ (.launched cfg8 [] [] s0 (by decide) rfl) rfl⟩

end Sys2Proof.Tests
end

/-! What an instruction does, said once for all 22 (`exec_eq`): where it faults, and what it leaves when it
does not. The frames of 10_state.md R35 are then one short case split for each piece of state. -/

namespace Sys2Proof.Proofs.Effect

open Sys2Proof Sys2Proof.Machine Sys2Proof.Laws

/-! ### The faults and the effects of the instructions -/

/-- The cause and information of an instruction's own fault, where it faults (R192 to R195). -/
def faultOf : Instr → State → Option (Cause × BitVec 13)
  | .call _, s => if s.sp.val < 16 then none else some (.stackOverflow, 16#13)
  | .ret, s => if s.sp.val = 0 then some (.stackUnderflow, 0#13) else none
  | .drw _ _ n, s => if s.blockFits n.toNat then none else some (.addressOutOfRange, outOfRangeInfo)
  | .ldF x, s =>
    if (s.getV x).toNat > 0xF then some (.invalidOperand, (s.getV x).setWidth 13) else none
  | .ldB _, s => if s.blockFits 3 then none else some (.addressOutOfRange, outOfRangeInfo)
  | .stRegs x, s => if s.blockFits (x.val + 1) then none else some (.addressOutOfRange, outOfRangeInfo)
  | .ldRegs x, s => if s.blockFits (x.val + 1) then none else some (.addressOutOfRange, outOfRangeInfo)
  | _, _ => none

/-- The state an instruction that does not fault leaves. The stack accesses of `2NNN` and `00EE` are written
in total form, so that every other field can be read off without their bounds. -/
def effect : Instr → State → State
  | .jp nnn, s => s.setPC nnn
  | .call nnn, s => { s with
      stack := s.stack.setIfInBounds s.sp.val s.pc, sp := Fin.ofNat 17 (s.sp.val + 1), pc := nnn }
  | .ret, s => { s with
      sp := Fin.ofNat 17 (s.sp.val - 1), pc := (s.stack[s.sp.val - 1]?).getD 0#12 + 2#12 }
  | .seImm x nn, s => s.skipIf (s.getV x == nn)
  | .sneImm x nn, s => s.skipIf (s.getV x != nn)
  | .seReg x y, s => s.skipIf (s.getV x == s.getV y)
  | .ldImm x nn, s => s.loadV x nn
  | .addImm x nn, s => s.loadV x (s.getV x + nn)
  | .ldReg x y, s => s.loadV x (s.getV y)
  | .orReg x y, s => s.loadV x (s.getV x ||| s.getV y)
  | .andReg x y, s => s.loadV x (s.getV x &&& s.getV y)
  | .xorReg x y, s => s.loadV x (s.getV x ^^^ s.getV y)
  | .addReg x y, s => s.loadFlagged x (carryFlag (s.getV x) (s.getV y)) (s.getV x + s.getV y)
  | .subReg x y, s => s.loadFlagged x (noBorrowFlag (s.getV x) (s.getV y)) (s.getV x - s.getV y)
  | .ldI nnn, s => (s.setI nnn).advance
  | .jpV0 nnn, s => s.setPC (s.indexedTarget nnn)
  | .rnd x nn, s => s.loadV x (s.rndIn &&& nn)
  | .drw x y n, s => (s.setDrawn (s.drawSprite x y n)).advance
  | .ldF x, s => (s.setI (s.glyphAddr (s.getV x))).advance
  | .ldB x, s => (s.storeDigits (s.getV x)).advance
  | .stRegs x, s => (s.storeBlock (x.val + 1)).advance
  | .ldRegs x, s => (s.loadBlock (x.val + 1)).advance

/-- The state after an instruction: halted where it faults, else its effect. -/
def result (i : Instr) (s : State) : State :=
  match faultOf i s with
  | some (c, info) => takeFault c (encode i) info s
  | none => effect i s

theorem result_of_fault {i : Instr} {s : State} {c : Cause} {info : BitVec 13}
    (h : faultOf i s = some (c, info)) : result i s = takeFault c (encode i) info s := by
  simp only [result, h]

theorem result_of_no_fault {i : Instr} {s : State} (h : faultOf i s = none) : result i s = effect i s := by
  simp only [result, h]

theorem setIfInBounds_of_lt {v : Vector Addr 16} {k : Nat} (h : k < 16) (a : Addr) :
    v.setIfInBounds k a = v.set k a :=
  Vector.ext fun j hj => by rw [Vector.getElem_setIfInBounds, Vector.getElem_set]

/-- `exec` is `result` (R182: an instruction always has a next state). -/
theorem exec_eq (i : Instr) (s : State) : exec i s = .next (result i s) := by
  cases i with
  | call nnn =>
    by_cases h : s.sp.val < 16
    · have hsp : Fin.ofNat 17 (s.sp.val + 1) = ⟨s.sp.val + 1, by omega⟩ :=
        Fin.ext (Nat.mod_eq_of_lt (by omega))
      simp only [exec, execCall, result, faultOf, effect, h, dite_true, if_true, hsp, setIfInBounds_of_lt h]
      rfl
    · simp only [exec, execCall, result, faultOf, h, dite_false, if_false, raise]
  | ret =>
    by_cases h : s.sp.val = 0
    · simp only [exec, execRet, result, faultOf, h, dite_true, if_true, raise]
    · have hsp : Fin.ofNat 17 (s.sp.val - 1) = ⟨s.sp.val - 1, by omega⟩ :=
        Fin.ext (Nat.mod_eq_of_lt (by omega))
      have hk : s.stack[s.sp.val - 1]? = some s.stack[s.sp.val - 1] := Vector.getElem?_eq_getElem (by omega)
      simp only [exec, execRet, result, faultOf, effect, h, dite_false, if_false, hsp, hk, Option.getD_some]
  | drw x y n => simp only [exec, execDrw, result, faultOf, raise, effect]; split <;> rfl
  | ldF x => simp only [exec, execLdF, result, faultOf, raise, effect]; split <;> rfl
  | ldB x => simp only [exec, execLdB, result, faultOf, raise, effect]; split <;> rfl
  | stRegs x => simp only [exec, execStRegs, result, faultOf, raise, effect]; split <;> rfl
  | ldRegs x => simp only [exec, execLdRegs, result, faultOf, raise, effect]; split <;> rfl
  | _ => rfl

theorem exec_eq_next_iff {i : Instr} {s t : State} : exec i s = .next t ↔ result i s = t := by
  rw [exec_eq, Host.Outcome.next.injEq]

/-- An instruction halts the core and does nothing else, or it leaves its effect. -/
theorem exec_inv {i : Instr} {s t : State} (h : exec i s = .next t) :
    (∃ c info, t = takeFault c (encode i) info s) ∨ (faultOf i s = none ∧ t = effect i s) := by
  obtain rfl := exec_eq_next_iff.mp h
  cases hf : faultOf i s with
  | some f => exact .inl ⟨f.1, f.2, result_of_fault hf⟩
  | none => exact .inr ⟨rfl, result_of_no_fault hf⟩

/-! ### Block stores write memory alone, block loads registers alone -/

@[simp] theorem storeBlock_v (s : State) (n : Nat) : (s.storeBlock n).v = s.v := by rw [Ops.storeBlock_frame]
@[simp] theorem storeBlock_i (s : State) (n : Nat) : (s.storeBlock n).i = s.i := by rw [Ops.storeBlock_frame]
@[simp] theorem storeBlock_pc (s : State) (n : Nat) : (s.storeBlock n).pc = s.pc := by
  rw [Ops.storeBlock_frame]
@[simp] theorem storeBlock_stack (s : State) (n : Nat) : (s.storeBlock n).stack = s.stack := by
  rw [Ops.storeBlock_frame]
@[simp] theorem storeBlock_sp (s : State) (n : Nat) : (s.storeBlock n).sp = s.sp := by
  rw [Ops.storeBlock_frame]
@[simp] theorem storeBlock_disp (s : State) (n : Nat) : (s.storeBlock n).disp = s.disp := by
  rw [Ops.storeBlock_frame]
@[simp] theorem loadBlock_mem (s : State) (n : Nat) : (s.loadBlock n).mem = s.mem := by
  rw [Ops.loadBlock_frame]
@[simp] theorem loadBlock_i (s : State) (n : Nat) : (s.loadBlock n).i = s.i := by rw [Ops.loadBlock_frame]
@[simp] theorem loadBlock_pc (s : State) (n : Nat) : (s.loadBlock n).pc = s.pc := by rw [Ops.loadBlock_frame]
@[simp] theorem loadBlock_stack (s : State) (n : Nat) : (s.loadBlock n).stack = s.stack := by
  rw [Ops.loadBlock_frame]
@[simp] theorem loadBlock_sp (s : State) (n : Nat) : (s.loadBlock n).sp = s.sp := by rw [Ops.loadBlock_frame]
@[simp] theorem loadBlock_disp (s : State) (n : Nat) : (s.loadBlock n).disp = s.disp := by
  rw [Ops.loadBlock_frame]
@[simp] theorem loadBlock_cfg (s : State) (n : Nat) : (s.loadBlock n).cfg = s.cfg := by
  rw [Ops.loadBlock_frame]

/-! ### What an effect leaves unchanged (R35) -/

theorem loadV_getV_of_ne {s : State} {x r : RegIdx} {b : Byte} (h : r ≠ x) :
    (s.loadV x b).getV r = s.getV r := by
  obtain ⟨-, -, hv, -⟩ := Ops.loadV_frame s x b
  exact hv r (by simpa using h)

theorem loadFlagged_getV_of_ne {s : State} {x r : RegIdx} {f b : Byte} (h : ¬ (r = vfIdx ∨ r = x)) :
    (s.loadFlagged x f b).getV r = s.getV r := by
  obtain ⟨-, -, -, hv, -⟩ := Ops.loadFlagged_frame s x f b
  exact hv r (by simpa [or_comm] using h)

theorem effect_getV {i : Instr} (s : State) {r : RegIdx} (h : ¬ writesV i r) :
    (effect i s).getV r = s.getV r := by
  cases i with
  | ldImm | addImm | ldReg | orReg | andReg | xorReg | rnd => exact loadV_getV_of_ne h
  | addReg | subReg => exact loadFlagged_getV_of_ne h
  | drw x y n => exact (Ops.getV_setVF _ r _).trans (if_neg h)
  | stRegs x => exact Ops.getV_congr (storeBlock_v s _) r
  | ldRegs x =>
    have hr : ¬ r.val < x.val + 1 := fun hlt => h (Nat.le_of_lt_succ hlt)
    exact (Ops.getV_loadBlock s _ x.isLt r).trans (if_neg hr)
  | _ => rfl

theorem effect_i {i : Instr} (s : State) (hI : ∀ nnn, i ≠ .ldI nnn) (hF : ∀ x, i ≠ .ldF x) :
    (effect i s).i = s.i := by
  cases i with
  | ldI nnn => exact absurd rfl (hI nnn)
  | ldF x => exact absurd rfl (hF x)
  | stRegs x => exact storeBlock_i s _
  | ldRegs x => exact loadBlock_i s _
  | _ => rfl

theorem effect_disp {i : Instr} (s : State) (h : ∀ x y n, i ≠ .drw x y n) :
    (effect i s).disp = s.disp := by
  cases i with
  | drw x y n => exact absurd rfl (h x y n)
  | stRegs x => exact storeBlock_disp s _
  | ldRegs x => exact loadBlock_disp s _
  | _ => rfl

theorem effect_stack {i : Instr} (s : State) (h : ∀ nnn, i ≠ .call nnn) :
    (effect i s).stack = s.stack := by
  cases i with
  | call nnn => exact absurd rfl (h nnn)
  | stRegs x => exact storeBlock_stack s _
  | ldRegs x => exact loadBlock_stack s _
  | _ => rfl

theorem effect_sp {i : Instr} (s : State) (h : ∀ nnn, i ≠ .call nnn) (hr : i ≠ .ret) :
    (effect i s).sp = s.sp := by
  cases i with
  | call nnn => exact absurd rfl (h nnn)
  | ret => exact absurd rfl hr
  | stRegs x => exact storeBlock_sp s _
  | ldRegs x => exact loadBlock_sp s _
  | _ => rfl

theorem effect_readByte {i : Instr} (s : State) (hB : ∀ x, i ≠ .ldB x) (hS : ∀ x, i ≠ .stRegs x)
    (a : Nat) : (effect i s).readByte a = s.readByte a := by
  cases i with
  | ldB x => exact absurd rfl (hB x)
  | stRegs x => exact absurd rfl (hS x)
  | ldRegs x => exact Mem.readByte_congr (loadBlock_mem s (x.val + 1)) (loadBlock_cfg s (x.val + 1)) a
  | _ => rfl

theorem effect_pc_of_not_flow {i : Instr} (s : State) (h : ¬ isFlow i) : (effect i s).pc = s.nextPC := by
  cases i with
  | jp | call | ret | seImm | sneImm | seReg | jpV0 => exact absurd trivial h
  | stRegs x => exact congrArg (· + 2#12) (storeBlock_pc s _)
  | ldRegs x => exact congrArg (· + 2#12) (loadBlock_pc s _)
  | _ => rfl

theorem storeDigits_keepsMemOutside (s : State) (b : Byte) :
    KeepsMemOutside (s.effAddr 0) 3 s (s.storeDigits b) := by
  intro a ha
  have h1 : s.effAddr 1 = s.effAddr 0 + 1 := rfl
  have h2 : s.effAddr 2 = s.effAddr 0 + 2 := rfl
  rw [Ops.readByte_storeDigits, if_neg (by omega), if_neg (by omega), if_neg (by omega)]

theorem storeBlock_keepsMemOutside (s : State) {n : Nat} (hn : n ≤ 16) :
    KeepsMemOutside (s.effAddr 0) n s (s.storeBlock n) := by
  intro a ha
  have h0 : s.effAddr 0 = s.i.toNat := rfl
  rw [Ops.readByte_storeBlock s n hn, if_neg (by omega)]

/-! ### The obligations on what each instruction writes -/

/-- Settles O30: a fault writes no register, and each effect only those of its row. -/
theorem registerWritersAreTheTable : Obligations.RegisterWritersAreTheTable := by
  intro i s t r h hr
  obtain ⟨c, info, rfl⟩ | ⟨-, rfl⟩ := exec_inv h
  · rfl
  · exact effect_getV s hr

/-- Settles O31: a fault keeps I, and so does every effect but those of `ANNN` and `FX29`. -/
theorem onlyTwoInstructionsWriteI : Obligations.OnlyTwoInstructionsWriteI := by
  intro i s t h hI hF
  obtain ⟨c, info, rfl⟩ | ⟨-, rfl⟩ := exec_inv h
  · rfl
  · exact effect_i s hI hF

/-- Settles O32: a fault keeps the display, and so does every effect but that of `DXYN`. -/
theorem onlyDrawWritesDisplay : Obligations.OnlyDrawWritesDisplay := by
  intro i s t h hD
  obtain ⟨c, info, rfl⟩ | ⟨-, rfl⟩ := exec_inv h
  · rfl
  · exact effect_disp s hD

/-- Settles O33: a fault keeps stack and SP, and only `00EE` moves SP without an entry. -/
theorem onlyCallAndReturnTouchStack : Obligations.OnlyCallAndReturnTouchStack := by
  intro i s t h hC
  obtain ⟨c, info, rfl⟩ | ⟨-, rfl⟩ := exec_inv h
  · exact ⟨rfl, fun _ => rfl⟩
  · exact ⟨effect_stack s hC, effect_sp s hC⟩

/-- Settles O34: a faulting store writes no byte, and a store that completes none outside its block. -/
theorem onlyStoresWriteMemory : Obligations.OnlyStoresWriteMemory := by
  intro i s t h
  obtain ⟨c, info, rfl⟩ | ⟨-, rfl⟩ := exec_inv h
  · exact ⟨fun _ _ _ => rfl, fun _ _ _ _ => rfl, fun _ _ _ _ => rfl⟩
  · refine ⟨fun hB hS => effect_readByte s hB hS, ?_, ?_⟩
    · rintro x rfl
      exact storeDigits_keepsMemOutside s _
    · rintro x rfl
      exact storeBlock_keepsMemOutside s x.isLt

/-- Settles O35, from what all instructions have in common (`Ops.exec_cases`). -/
theorem noInstructionTouchesTimers : Obligations.NoInstructionTouchesTimers := by
  intro i s t h
  obtain ⟨c, info, rfl⟩ | ⟨⟨hdt, hst, htick, -, hcfg, hin, hdraws⟩, -⟩ := Ops.exec_cases h
  · exact ⟨rfl, rfl, rfl, rfl, rfl, rfl⟩
  · exact ⟨hdt, hst, htick, hcfg, hin, hdraws⟩

/-- Settles O36: a core that is still running did not take a fault. -/
theorem sequentialAdvance : Obligations.SequentialAdvance := by
  intro i s t _ h ht hflow
  obtain ⟨c, info, rfl⟩ | ⟨-, rfl⟩ := exec_inv h
  · cases ht
  · have hpc := effect_pc_of_not_flow s hflow
    exact ⟨hpc, (congrArg BitVec.toNat hpc).trans (Ops.nextPC_toNat s)⟩

end Sys2Proof.Proofs.Effect

/-! The cycle as equations: the converse of `Ops.step_cases`, one for each kind of cycle (R171, R198). -/

namespace Sys2Proof.Proofs.Cycle

open Sys2Proof Sys2Proof.Machine

theorem step_of_halted {s : State} {r : HaltRecord} (hr : s.run = .halted r) : step s = .next s := by
  simp only [step, runCycle, hr]

theorem step_of_running {s : State} (hr : s.run = .running) : step s = useInputs (runningCycle s) := by
  simp only [step, runCycle, hr]

theorem step_of_stop {s : State} (hr : s.run = .running) (hs : s.stopIn = true) :
    step s = .next (takeFault .externalStop 0#16 0#13 s).nextInputs := by
  simp only [step_of_running hr, runningCycle, hs, if_true, useInputs]

theorem step_of_no_fetch {s : State} (hr : s.run = .running) (hs : s.stopIn = false) (hf : s.fetch = none) :
    step s = .next (takeFault .addressOutOfRange 0#16 0x1000#13 s).nextInputs := by
  simp only [step_of_running hr, runningCycle, hs, Bool.false_eq_true, if_false, hf, useInputs]

theorem step_of_fetch {s : State} {w : Word} (hr : s.run = .running) (hs : s.stopIn = false)
    (hf : s.fetch = some w) : step s = useInputs (runWord w s) := by
  simp only [step_of_running hr, runningCycle, hs, Bool.false_eq_true, if_false, hf]

theorem step_of_illegal {s : State} {w : Word} {e : DecodeReject} (hr : s.run = .running)
    (hs : s.stopIn = false) (hf : s.fetch = some w) (hd : decodeWord w = .error e) :
    step s = .next (takeFault .decodeError w 0#13 s).nextInputs := by
  simp only [step_of_fetch hr hs hf, runWord, hd, useInputs]

theorem step_of_decoded {s : State} {w : Word} {i : Instr} (hr : s.run = .running) (hs : s.stopIn = false)
    (hf : s.fetch = some w) (hd : decodeWord w = .ok i) : step s = useInputs (finishCycle (exec i s)) := by
  simp only [step_of_fetch hr hs hf, runWord, hd]

/-- A cycle whose instruction completed ticks (R175). -/
theorem finish_of_running {i : Instr} {s u : State} (he : exec i s = .next u) (hu : u.run = .running) :
    useInputs (finishCycle (exec i s)) = .next u.tick.nextInputs := by
  simp only [he, finishCycle, hu, useInputs]

/-- A cycle whose instruction faulted does not tick (R176). -/
theorem finish_of_halted {i : Instr} {s u : State} {r : HaltRecord} (he : exec i s = .next u)
    (hu : u.run = .halted r) : useInputs (finishCycle (exec i s)) = .next u.nextInputs := by
  simp only [he, finishCycle, hu, useInputs]

end Sys2Proof.Proofs.Cycle

/-! Noninterference (10_state.md R25, R32): fields that an instruction does not read pass through it. -/

namespace Sys2Proof.Proofs.Unread

open Sys2Proof Sys2Proof.Machine Sys2Proof.Laws Sys2Proof.Proofs.Effect Sys2Proof.Proofs.Cycle

/-! ### The loops of the block and draw instructions -/

/-- A change of state that registers, I and memory writes do not see passes through a block store. -/
theorem storeBlock_comm {f : State → State} (hv : ∀ s r, (f s).getV r = s.getV r)
    (hi : ∀ s, (f s).i = s.i) (hw : ∀ s a b, (f s).writeByte a b = f (s.writeByte a b))
    (s : State) (n : Nat) : (f s).storeBlock n = f (s.storeBlock n) := by
  induction n with
  | zero => rfl
  | succ k ih => rw [State.storeBlock, ih, hv, State.effAddr, hi, hw]; rfl

/-- The same for a block load. -/
theorem loadBlock_comm {f : State → State} (hr : ∀ s a, (f s).readByte a = s.readByte a)
    (hi : ∀ s, (f s).i = s.i) (hw : ∀ s r b, (f s).setV r b = f (s.setV r b))
    (s : State) (n : Nat) : (f s).loadBlock n = f (s.loadBlock n) := by
  induction n with
  | zero => rfl
  | succ k ih => rw [State.loadBlock, ih, hr, State.effAddr, hi, hw]; rfl

/-- The rows of a sprite are drawn from I and memory alone. -/
theorem drawRows_congr {s s' : State} (hr : ∀ a, s'.readByte a = s.readByte a) (hi : s'.i = s.i)
    (cx cy n : Nat) (d : DrawState) : drawRows s' cx cy n d = drawRows s cx cy n d := by
  induction n with
  | zero => rfl
  | succ k ih => rw [drawRows, ih, hr, State.effAddr, hi]; rfl

/-- So is the whole sprite, with the registers and the display. -/
theorem drawSprite_congr (s s' : State) (hv : s'.v = s.v) (hm : s'.mem = s.mem) (hc : s'.cfg = s.cfg)
    (hi : s'.i = s.i) (hd : s'.disp = s.disp) (x y : RegIdx) (n : BitVec 4) :
    s'.drawSprite x y n = s.drawSprite x y n := by
  rw [State.drawSprite, State.spriteX, State.spriteY, Ops.getV_congr hv, Ops.getV_congr hv, hd,
    drawRows_congr (Mem.readByte_congr hm hc) hi]
  rfl

/-! ### The inputs of the cycle -/

/-- The state with other inputs (log 7). -/
def withInputs (inputs : List CycleInput) (draws : Nat) (s : State) : State :=
  { s with inputs := inputs, draws := draws }

theorem faultOf_withInputs (i : Instr) (inputs : List CycleInput) (draws : Nat) (s : State) :
    faultOf i (withInputs inputs draws s) = faultOf i s := by
  cases i with | _ => rfl

theorem effect_withInputs {i : Instr} (h : ∀ x nn, i ≠ .rnd x nn) (inputs : List CycleInput) (draws : Nat)
    (s : State) : effect i (withInputs inputs draws s) = withInputs inputs draws (effect i s) := by
  cases i with
  | rnd x nn => exact absurd rfl (h x nn)
  | drw x y n =>
    have hd : (withInputs inputs draws s).drawSprite x y n = s.drawSprite x y n :=
      drawSprite_congr s (withInputs inputs draws s) rfl rfl rfl rfl rfl x y n
    exact congrArg (fun d => ((withInputs inputs draws s).setDrawn d).advance) hd
  | stRegs x =>
    exact congrArg State.advance (storeBlock_comm (f := withInputs inputs draws)
      (fun _ _ => rfl) (fun _ => rfl) (fun _ _ _ => rfl) s _)
  | ldRegs x =>
    exact congrArg State.advance (loadBlock_comm (f := withInputs inputs draws)
      (fun _ _ => rfl) (fun _ => rfl) (fun _ _ _ => rfl) s _)
  | _ => rfl

theorem result_withInputs {i : Instr} (h : ∀ x nn, i ≠ .rnd x nn) (inputs : List CycleInput) (draws : Nat)
    (s : State) : result i (withInputs inputs draws s) = withInputs inputs draws (result i s) := by
  have hf' := faultOf_withInputs i inputs draws s
  cases hf : faultOf i s with
  | some f => rw [result_of_fault hf, result_of_fault (hf'.trans hf)]; rfl
  | none => rw [result_of_no_fault hf, result_of_no_fault (hf'.trans hf), effect_withInputs h]

/-- Settles O48: other inputs pass through the instruction unread. -/
theorem onlyRandomReadsInput : Obligations.OnlyRandomReadsInput := by
  intro i s t inputs draws hi h
  obtain rfl := exec_eq_next_iff.mp h
  exact (exec_eq i (withInputs inputs draws s)).trans (congrArg _ (result_withInputs hi inputs draws s))

/-! ### Dead stack entries -/

/-- The state with other stack entries. -/
def withStack (stack : Vector Addr 16) (s : State) : State := { s with stack := stack }

theorem faultOf_withStack (i : Instr) (stack : Vector Addr 16) (s : State) :
    faultOf i (withStack stack s) = faultOf i s := by
  cases i with | _ => rfl

theorem effect_withStack {i : Instr} (hC : ∀ nnn, i ≠ .call nnn) (hR : i ≠ .ret) (stack : Vector Addr 16)
    (s : State) : effect i (withStack stack s) = withStack stack (effect i s) := by
  cases i with
  | call nnn => exact absurd rfl (hC nnn)
  | ret => exact absurd rfl hR
  | drw x y n =>
    have hd : (withStack stack s).drawSprite x y n = s.drawSprite x y n :=
      drawSprite_congr s (withStack stack s) rfl rfl rfl rfl rfl x y n
    exact congrArg (fun d => ((withStack stack s).setDrawn d).advance) hd
  | stRegs x =>
    exact congrArg State.advance (storeBlock_comm (f := withStack stack)
      (fun _ _ => rfl) (fun _ => rfl) (fun _ _ _ => rfl) s _)
  | ldRegs x =>
    exact congrArg State.advance (loadBlock_comm (f := withStack stack)
      (fun _ _ => rfl) (fun _ => rfl) (fun _ _ _ => rfl) s _)
  | _ => rfl

/-- States that agree but in dead entries are one state with two stacks. -/
theorem agreeButDead_iff {s s' : State} : AgreeButDead s s' ↔
    ∃ stack : Vector Addr 16, s' = withStack stack s ∧
      ∀ k : Fin 16, k.val < s.sp.val → stack[k.val] = s.stack[k.val] :=
  ⟨fun ⟨h, hk⟩ => ⟨s'.stack, h, hk⟩, by rintro ⟨stack, rfl, hk⟩; exact ⟨rfl, hk⟩⟩

theorem agreeButDead_takeFault {s s' : State} (h : AgreeButDead s s') (c : Cause) (w : Word)
    (info : BitVec 13) : AgreeButDead (takeFault c w info s) (takeFault c w info s') := by
  obtain ⟨stack, rfl, hk⟩ := agreeButDead_iff.mp h
  exact ⟨rfl, hk⟩

theorem agreeButDead_tick {s s' : State} (h : AgreeButDead s s') : AgreeButDead s.tick s'.tick := by
  obtain ⟨stack, rfl, hk⟩ := agreeButDead_iff.mp h
  exact ⟨rfl, hk⟩

theorem agreeButDead_nextInputs {s s' : State} (h : AgreeButDead s s') :
    AgreeButDead s.nextInputs s'.nextInputs := by
  obtain ⟨stack, rfl, hk⟩ := agreeButDead_iff.mp h
  exact ⟨rfl, hk⟩

/-- An instruction that does not use the stack passes the dead entries on. -/
theorem agreeButDead_effect_of_not_stack {i : Instr} (hC : ∀ nnn, i ≠ .call nnn) (hR : i ≠ .ret)
    {s s' : State} (h : AgreeButDead s s') : AgreeButDead (effect i s) (effect i s') := by
  obtain ⟨stack, rfl, hk⟩ := agreeButDead_iff.mp h
  rw [effect_withStack hC hR]
  refine ⟨rfl, fun k hlt => ?_⟩
  rw [effect_sp s hC hR] at hlt
  rw [effect_stack s hC]
  exact hk k hlt

/-- A call overwrites the first dead entry, and a return reads the last live one. -/
theorem agreeButDead_effect {i : Instr} {s s' : State} (h : AgreeButDead s s') (hf : faultOf i s = none) :
    AgreeButDead (effect i s) (effect i s') := by
  cases i with
  | call nnn =>
    obtain ⟨stack, rfl, hk⟩ := agreeButDead_iff.mp h
    refine ⟨rfl, fun k hlt => ?_⟩
    have hle : k.val < s.sp.val + 1 := lt_of_lt_of_le hlt (Nat.mod_le _ _)
    simp only [effect, withStack, Vector.getElem_setIfInBounds]
    by_cases hk' : s.sp.val = k.val
    · rw [if_pos hk', if_pos hk']
    · rw [if_neg hk', if_neg hk']
      exact hk k (by omega)
  | ret =>
    obtain ⟨stack, rfl, hk⟩ := agreeButDead_iff.mp h
    have hsp : s.sp.val ≠ 0 := by
      intro h0
      simp [faultOf, h0] at hf
    have hlt : s.sp.val - 1 < 16 := by omega
    have htop : stack[s.sp.val - 1]? = s.stack[s.sp.val - 1]? := by
      rw [Vector.getElem?_eq_getElem hlt, Vector.getElem?_eq_getElem hlt, hk ⟨_, hlt⟩ (by simp only; omega)]
    refine ⟨?_, fun k hlt => hk k (lt_of_lt_of_le hlt ((Nat.mod_le _ _).trans (Nat.sub_le _ _)))⟩
    simp only [effect, withStack, htop]
  | _ => exact agreeButDead_effect_of_not_stack (by nofun) (by nofun) h

theorem agreeButDead_result {i : Instr} {s s' : State} (h : AgreeButDead s s') :
    AgreeButDead (result i s) (result i s') := by
  have hf' : faultOf i s' = faultOf i s := by
    obtain ⟨stack, rfl, -⟩ := agreeButDead_iff.mp h
    exact faultOf_withStack i stack s
  cases hf : faultOf i s with
  | some f =>
    rw [result_of_fault hf, result_of_fault (hf'.trans hf)]
    exact agreeButDead_takeFault h _ _ _
  | none =>
    rw [result_of_no_fault hf, result_of_no_fault (hf'.trans hf)]
    exact agreeButDead_effect h hf

/-- What agreeing states have in common, as far as a cycle looks at it. -/
theorem agreeButDead_cycle {s s' : State} (h : AgreeButDead s s') :
    s'.run = s.run ∧ s'.stopIn = s.stopIn ∧ s'.fetch = s.fetch := by
  obtain ⟨stack, rfl, -⟩ := agreeButDead_iff.mp h
  exact ⟨rfl, rfl, rfl⟩

/-- Settles O49: case by case, the two states take the same kind of cycle. -/
theorem deadStackEntriesUnobservable : Obligations.DeadStackEntriesUnobservable := by
  intro s s' t h hstep
  obtain ⟨hrun, hstop, hfetch⟩ := agreeButDead_cycle h
  obtain ⟨r, hr, rfl⟩ | ⟨hr, hs, rfl⟩ | ⟨hr, hs, hf, rfl⟩ | ⟨w, e, hr, hs, hf, hd, rfl⟩ |
    ⟨w, i, u, hr, hs, hf, hd, he, hu⟩ := Ops.step_cases hstep
  · exact ⟨s', step_of_halted (hrun.trans hr), h⟩
  · exact ⟨_, step_of_stop (hrun.trans hr) (hstop.trans hs),
      agreeButDead_nextInputs (agreeButDead_takeFault h _ _ _)⟩
  · exact ⟨_, step_of_no_fetch (hrun.trans hr) (hstop.trans hs) (hfetch.trans hf),
      agreeButDead_nextInputs (agreeButDead_takeFault h _ _ _)⟩
  · exact ⟨_, step_of_illegal (hrun.trans hr) (hstop.trans hs) (hfetch.trans hf) hd,
      agreeButDead_nextInputs (agreeButDead_takeFault h _ _ _)⟩
  · obtain rfl := exec_eq_next_iff.mp he
    have hag : AgreeButDead (result i s) (result i s') := agreeButDead_result h
    obtain ⟨hrun', -, -⟩ := agreeButDead_cycle hag
    have hstep' := step_of_decoded (hrun.trans hr) (hstop.trans hs) (hfetch.trans hf) hd
    obtain ⟨hu, rfl⟩ | ⟨⟨r, hu⟩, rfl⟩ := hu
    · exact ⟨_, hstep'.trans (finish_of_running (exec_eq i s') (hrun'.trans hu)),
        agreeButDead_nextInputs (agreeButDead_tick hag)⟩
    · exact ⟨_, hstep'.trans (finish_of_halted (exec_eq i s') (hrun'.trans hu)), agreeButDead_nextInputs hag⟩

end Sys2Proof.Proofs.Unread

/-! The invariant of 10_state.md R34 and the timers: what one cycle keeps, and what every run keeps. -/

namespace Sys2Proof.Proofs.Invariant

open Sys2Proof Sys2Proof.Machine Sys2Proof.Laws

/-! ### The parts of a cycle keep the invariant -/

theorem inv_takeFault {s : State} (h : s.Inv) (c : Cause) (w : Word) (info : BitVec 13) :
    (takeFault c w info s).Inv :=
  ⟨h.cfg_ok, h.mem_wf, h.tick_lt⟩

theorem inv_nextInputs {s : State} (h : s.Inv) : s.nextInputs.Inv := ⟨h.cfg_ok, h.mem_wf, h.tick_lt⟩

theorem timerDivisor_pos {c : Config} (h : c.wellFormed = true) : 0 < c.timerDivisor := by
  simp only [Config.wellFormed, Config.timerDivisorOk, Bool.and_eq_true, decide_eq_true_eq] at h
  exact h.2

theorem tickCount_tick_lt {s : State} (hpos : 0 < s.cfg.timerDivisor) (h : s.tickCount < s.cfg.timerDivisor) :
    s.tick.tickCount < s.cfg.timerDivisor := by
  by_cases hd : s.tickCount + 1 = s.cfg.timerDivisor
  · obtain ⟨htick, -, -⟩ := Ops.tick_due s hd
    omega
  · obtain ⟨htick, -, -⟩ := Ops.tick_notDue s hd
    omega

theorem inv_tick {s : State} (h : s.Inv) : s.tick.Inv :=
  ⟨h.cfg_ok, h.mem_wf, tickCount_tick_lt (timerDivisor_pos h.cfg_ok) h.tick_lt⟩

theorem inv_exec {i : Instr} {s t : State} (h : s.Inv) (he : exec i s = .next t) : t.Inv := by
  obtain ⟨c, info, rfl⟩ | ⟨⟨-, -, htick, -, hcfg, -, -⟩, hwf⟩ := Ops.exec_cases he
  · exact inv_takeFault h _ _ _
  · exact ⟨hcfg ▸ h.cfg_ok, hcfg ▸ hwf h.mem_wf, by rw [htick, hcfg]; exact h.tick_lt⟩

/-- Settles O54, over the five kinds of a cycle. -/
theorem stepKeepsInvariant : Obligations.StepKeepsInvariant := by
  intro s t h hstep
  obtain ⟨r, -, rfl⟩ | ⟨-, -, rfl⟩ | ⟨-, -, -, rfl⟩ | ⟨w, e, -, -, -, -, rfl⟩ |
    ⟨w, i, u, -, -, -, -, he, hu⟩ := Ops.step_cases hstep
  · exact h
  · exact inv_nextInputs (inv_takeFault h _ _ _)
  · exact inv_nextInputs (inv_takeFault h _ _ _)
  · exact inv_nextInputs (inv_takeFault h _ _ _)
  · have hinv : u.Inv := inv_exec h he
    obtain ⟨-, rfl⟩ | ⟨-, rfl⟩ := hu
    · exact inv_nextInputs (inv_tick hinv)
    · exact inv_nextInputs hinv

/-! ### Timers -/

/-- Between two states each timer keeps its value or goes down by one. -/
def TimersStep (s t : State) : Prop :=
  (t.dt.toNat = s.dt.toNat ∨ t.dt.toNat + 1 = s.dt.toNat) ∧
    (t.st.toNat = s.st.toNat ∨ t.st.toNat + 1 = s.st.toNat)

theorem timersStep_of_eq {s t : State} (hd : t.dt = s.dt) (hs : t.st = s.st) : TimersStep s t :=
  ⟨.inl (congrArg _ hd), .inl (congrArg _ hs)⟩

theorem timersStep_tick (s : State) : TimersStep s s.tick := by
  by_cases h : s.tickCount + 1 = s.cfg.timerDivisor
  · obtain ⟨-, hd, hs⟩ := Ops.tick_due s h
    exact ⟨by omega, by omega⟩
  · obtain ⟨-, hd, hs⟩ := Ops.tick_notDue s h
    exact timersStep_of_eq hd hs

/-- Settles O57: only the tick writes a timer. -/
theorem timersNeverIncrease : Obligations.TimersNeverIncrease := by
  intro s t hstep
  obtain ⟨r, -, rfl⟩ | ⟨-, -, rfl⟩ | ⟨-, -, -, rfl⟩ | ⟨w, e, -, -, -, -, rfl⟩ |
    ⟨w, i, u, -, -, -, -, he, hu⟩ := Ops.step_cases hstep
  · exact timersStep_of_eq rfl rfl
  · exact timersStep_of_eq rfl rfl
  · exact timersStep_of_eq rfl rfl
  · exact timersStep_of_eq rfl rfl
  · obtain ⟨hd, hs, -⟩ := Effect.noInstructionTouchesTimers i s u he
    obtain ⟨-, rfl⟩ | ⟨-, rfl⟩ := hu
    · have htick := timersStep_tick u
      rwa [TimersStep, hd, hs] at htick
    · exact timersStep_of_eq hd hs

/-! ### Reset and ROM load -/

theorem inv_resetWith {cfg : Config} (h : cfg.wellFormed = true) : (State.resetWith cfg).Inv :=
  ⟨h, Mem.wf_reset cfg, timerDivisor_pos h⟩

theorem inv_applyReset {s : State} (h : s.cfg.wellFormed = true) : s.applyReset.Inv :=
  ⟨h, Mem.wf_reset s.cfg, timerDivisor_pos h⟩

theorem wellFormed_defaultConfig : defaultConfig.wellFormed = true := by
  simp [Config.wellFormed, Config.fontBaseOk, Config.timerDivisorOk, defaultConfig]

/-- Settles O55: all three are reset states of a well-formed configuration. -/
theorem resetMeetsInvariant : Obligations.ResetMeetsInvariant :=
  ⟨fun _ => inv_resetWith, inv_resetWith wellFormed_defaultConfig, fun _ => inv_applyReset⟩

theorem resetByte_font (c : Config) (k : Fin 80) :
    resetByte c (c.fontBase.toNat + k.val) = c.fontData[k.val] := by
  have h : c.fontBase.toNat ≤ c.fontBase.toNat + k.val ∧
      c.fontBase.toNat + k.val < c.fontBase.toNat + 80 := by omega
  simp only [resetByte, dif_pos h, Nat.add_sub_cancel_left]

theorem resetByte_outside_font {c : Config} {a : Nat} (h : a < c.fontBase.toNat ∨ c.fontBase.toNat + 80 ≤ a) :
    resetByte c a = 0#8 :=
  dif_neg (by omega)

/-- Memory that lists nothing reads as its reset content. -/
theorem readByte_applyReset (s : State) (a : Nat) : s.applyReset.readByte a = resetByte s.cfg a := rfl

/-- Settles O51: the fields are those of `State.resetWith`, and memory reads as `resetByte`. -/
theorem resetLeavesTheTable : Obligations.ResetLeavesTheTable := by
  intro s
  refine ⟨rfl, rfl, rfl, fun k => ?_, fun a ha => ?_, fun r => ?_, rfl, rfl, rfl, fun row col => ?_, rfl, rfl⟩
  · exact (readByte_applyReset s _).trans (resetByte_font s.cfg k)
  · exact (readByte_applyReset s a).trans (resetByte_outside_font ha)
  · simp [State.getV, State.applyReset, State.resetWith]
  · simp [Display.pixel, State.applyReset, State.resetWith]

/-- A ROM load changes memory alone, and keeps it canonical. -/
theorem romLoad_keeps {s t : State} {rom : List Byte} (h : s.romLoad rom = some t) (hs : s.Inv) :
    t.Inv ∧ t.dt = s.dt ∧ t.st = s.st := by
  by_cases hlen : rom.length ≤ 3584
  · obtain rfl : s.storeBytes 0x200 rom = t := by simpa [State.romLoad, hlen] using h
    have hwf := Mem.wf_storeBytes rom s 0x200 (by omega) hs.mem_wf
    rw [Mem.storeBytes_frame]
    exact ⟨⟨hs.cfg_ok, hwf, hs.tick_lt⟩, rfl, rfl⟩
  · simp [State.romLoad, hlen] at h

/-- Settles O56: by induction on the run, with O54 and O57 for its cycles. -/
theorem reachableStatesMeetInvariant : Obligations.ReachableStatesMeetInvariant := by
  intro s hs
  induction hs with
  | launched cfg rom inputs s ok h =>
    have hinv : ({ State.resetWith cfg with inputs := inputs } : State).Inv :=
      ⟨ok, Mem.wf_reset cfg, timerDivisor_pos ok⟩
    exact romLoad_keeps h hinv
  | stepped s t _ hstep ih =>
    obtain ⟨hinv, hdt, hst⟩ := ih
    obtain ⟨hd, hs⟩ := timersNeverIncrease s t hstep
    rw [hdt] at hd
    rw [hst] at hs
    refine ⟨stepKeepsInvariant s t hinv hstep, BitVec.eq_of_toNat_eq ?_, BitVec.eq_of_toNat_eq ?_⟩
    · simpa using hd
    · simpa using hs
  | reset s t rom _ h ih =>
    obtain ⟨hinv, -, -⟩ := ih
    exact romLoad_keeps h (inv_applyReset hinv.cfg_ok)

end Sys2Proof.Proofs.Invariant

/-! Memory as the core sees it (20_memory.md): one byte at a time (R53), and as the word that a cycle fetches
(R54), from the entry point of an empty machine (R66) to a store into the next instruction (R61). -/

namespace Sys2Proof.Proofs.Memory

open Sys2Proof Sys2Proof.Machine Sys2Proof.Laws Sys2Proof.Proofs.Effect Sys2Proof.Proofs.Cycle

/-! ### Byte accesses (R53) -/

theorem memRead_of_le (s : State) {a : Nat} (h : a ≤ 0xFFF) : s.memRead a = some (s.readByte a) :=
  if_neg (Nat.not_lt.mpr h)

theorem memRead_of_gt (s : State) {a : Nat} (h : a > 0xFFF) : s.memRead a = none := if_pos h

theorem memWrite_of_le (s : State) {a : Nat} (h : a ≤ 0xFFF) (b : Byte) :
    s.memWrite a b = some (s.writeByte a b) :=
  if_neg (Nat.not_lt.mpr h)

theorem memWrite_of_gt (s : State) {a : Nat} (h : a > 0xFFF) (b : Byte) : s.memWrite a b = none := if_pos h

/-- Settles O50: inside the 4096 cells the accesses are `readByte` and `writeByte`. -/
theorem byteWriteChangesOneCell : Obligations.ByteWriteChangesOneCell := by
  intro s a b
  refine ⟨fun ha => ⟨s.writeByte a b, memWrite_of_le s ha b, fun c hc => ?_, rfl⟩,
    fun ha => ⟨memWrite_of_gt s ha b, memRead_of_gt s ha⟩⟩
  rw [memRead_of_le _ hc, memRead_of_le _ hc, Mem.readByte_writeByte, apply_ite some]

/-! ### The fetch (R54) -/

/-- At 0xFFF the second byte has no address (D12). -/
theorem fetch_of_top {s : State} (h : s.pc = 0xFFF#12) : s.fetch = none := by
  simp [State.fetch, State.memRead2, h]

theorem fetch_of_not_top {s : State} (h : s.pc ≠ 0xFFF#12) :
    s.fetch = some (wordOfBytes (s.readByte s.pc.toNat) (s.readByte (s.pc.toNat + 1))) := by
  have hne : s.pc.toNat ≠ 0xFFF := fun hpc => h (BitVec.eq_of_toNat_eq hpc)
  exact if_neg (by omega)

/-- Settles O40: `haltedWith` is the taking of a fault, and there is no word to fetch. -/
theorem fetchBeyondTopHalts : Obligations.FetchBeyondTopHalts :=
  fun _ hr hs hpc => step_of_no_fetch hr hs (fetch_of_top hpc)

/-! ### The machine with no ROM (R66) -/

theorem launch_empty (cfg : Config) (inputs : List CycleInput) :
    launch cfg [] inputs = some { State.resetWith cfg with inputs := inputs } := rfl

theorem stopIn_of_forall {s : State} (h : ∀ inp ∈ s.inputs, inp.stop = false) : s.stopIn = false := by
  unfold State.stopIn
  split
  next inp rest hin => exact h inp (by simp [hin])
  next => rfl

/-- The font table of a well-formed configuration ends below the entry point (R6). -/
theorem fontEnd_le_entry {cfg : Config} (h : cfg.wellFormed = true) : cfg.fontBase.toNat + 80 ≤ 0x200 := by
  simp only [Config.wellFormed, Config.fontBaseOk, Bool.and_eq_true, decide_eq_true_eq] at h
  omega

/-- Memory that lists nothing has the word 0 at the entry point. -/
theorem fetch_entry_of_reset {s : State} (hcfg : s.cfg.wellFormed = true) (hm : s.mem = [])
    (hpc : s.pc = 0x200#12) : s.fetch = some 0x0000#16 := by
  have hfont := fontEnd_le_entry hcfg
  have hzero : ∀ a, 0x200 ≤ a → s.readByte a = 0#8 := fun a ha => by
    rw [State.readByte, hm]
    exact Invariant.resetByte_outside_font (.inr (by omega))
  rw [fetch_of_not_top (by rw [hpc]; decide), hpc, hzero _ (by decide), hzero _ (by decide)]
  rfl

/-- Settles O53: the word 0 is illegal (D14). -/
theorem emptyRomHaltsAtEntry : Obligations.EmptyRomHaltsAtEntry := by
  intro cfg inputs hcfg hstop
  have hzero : decodeWord 0x0000#16 = .error (.illegal 0x0000#16) := rfl
  exact ⟨_, _, launch_empty cfg inputs,
    step_of_illegal rfl (stopIn_of_forall hstop) (fetch_entry_of_reset hcfg rfl rfl) hzero, rfl⟩

/-! ### The decoder on the words of the stores -/

theorem opField_wordXNN (op : BitVec 4) (x : RegIdx) (nn : Byte) : opField (wordXNN op x nn) = op := by
  apply BitVec.eq_of_toNat_eq
  rw [Word.opField_toNat, Word.wordXNN_toNat]
  omega

theorem xField_wordXNN (op : BitVec 4) (x : RegIdx) (nn : Byte) : xField (wordXNN op x nn) = x := by
  apply Fin.ext
  rw [Word.xField_val, Word.wordXNN_toNat]
  omega

theorem nnField_wordXNN (op : BitVec 4) (x : RegIdx) (nn : Byte) : nnField (wordXNN op x nn) = nn := by
  apply BitVec.eq_of_toNat_eq
  rw [Word.nnField_toNat, Word.wordXNN_toNat]
  omega

theorem decodeWord_ldB (x : RegIdx) : decodeWord (encode (.ldB x)) = .ok (.ldB x) := by
  simp only [encode, decodeWord, decodeFamilyF, opField_wordXNN, nnField_wordXNN, xField_wordXNN]

theorem decodeWord_stRegs (x : RegIdx) : decodeWord (encode (.stRegs x)) = .ok (.stRegs x) := by
  simp only [encode, decodeWord, decodeFamilyF, opField_wordXNN, nnField_wordXNN, xField_wordXNN]

/-! ### A store and the next fetch (R61, R236) -/

@[simp] theorem storeBlock_run (s : State) (n : Nat) : (s.storeBlock n).run = s.run := by
  rw [Ops.storeBlock_frame]
@[simp] theorem loadBlock_run (s : State) (n : Nat) : (s.loadBlock n).run = s.run := by
  rw [Ops.loadBlock_frame]

theorem effect_run (i : Instr) (s : State) : (effect i s).run = s.run := by
  cases i with
  | stRegs x => exact storeBlock_run s _
  | ldRegs x => exact loadBlock_run s _
  | _ => rfl

/-- A cycle whose instruction does not fault leaves its effect and a tick. -/
theorem step_of_no_fault {s : State} {w : Word} {i : Instr} (hr : s.run = .running) (hs : s.stopIn = false)
    (hf : s.fetch = some w) (hd : decodeWord w = .ok i) (hok : faultOf i s = none) :
    step s = .next (effect i s).tick.nextInputs := by
  have he : exec i s = .next (effect i s) := by rw [exec_eq, result_of_no_fault hok]
  exact (step_of_decoded hr hs hf hd).trans (finish_of_running he ((effect_run i s).trans hr))

/-- After a completed instruction that is no control transfer, the next fetch reads, at `next`, the bytes
`m` that the instruction leaves. -/
theorem next_fetch_of_no_fault {s : State} {w : Word} {i : Instr} {m : Nat → Byte}
    (hr : s.run = .running) (hs : s.stopIn = false) (hf : s.fetch = some w) (hd : decodeWord w = .ok i)
    (hok : faultOf i s = none) (hflow : ¬ isFlow i) (hm : ∀ a, (effect i s).readByte a = m a) :
    ∃ t, step s = .next t ∧ t.run = .running ∧ PcIsNext s t ∧ (t.pc ≠ 0xFFF#12 →
      t.fetch = some (wordOfBytes (m t.pc.toNat) (m (t.pc.toNat + 1)))) := by
  have hpc : (effect i s).pc = s.nextPC := effect_pc_of_not_flow s hflow
  refine ⟨_, step_of_no_fault hr hs hf hd hok, (effect_run i s).trans hr,
    (congrArg BitVec.toNat hpc).trans (Ops.nextPC_toNat s), fun htop => ?_⟩
  rw [fetch_of_not_top htop]
  simp only [Ops.readByte_nextInputs, Ops.readByte_tick, hm]

theorem faultOf_ldB_of_le {s : State} (x : RegIdx) (h : s.i.toNat + 2 ≤ 0xFFF) :
    faultOf (.ldB x) s = none :=
  if_pos ((Ops.blockFits_iff s 3).mpr (by omega))

theorem faultOf_stRegs_of_le {s : State} {x : RegIdx} (h : s.i.toNat + x.val ≤ 0xFFF) :
    faultOf (.stRegs x) s = none :=
  if_pos ((Ops.blockFits_iff s (x.val + 1)).mpr (by omega))

/-- Settles O47: both stores go on to `next`, and the fetch there reads memory as the store left it. -/
theorem storeSeenByNextFetch : Obligations.StoreSeenByNextFetch := by
  intro s x hr hs
  constructor
  · intro hf hi
    exact next_fetch_of_no_fault hr hs hf (decodeWord_ldB x) (faultOf_ldB_of_le x hi) id
      (Ops.readByte_storeDigits_eq s x)
  · intro hf hi
    exact next_fetch_of_no_fault hr hs hf (decodeWord_stRegs x) (faultOf_stRegs_of_le hi) id
      (Ops.readByte_storeBlock_eq s x)

end Sys2Proof.Proofs.Memory

/-! The decoder and the encoder are inverse on the legal words (30_encoding.md R81 to R87): the fields of a
word determine it, `decodeWord_encode` reads every instruction back from its word, and `decodeWord_accounted`
says once what the decoder answers for a word. -/

namespace Sys2Proof.Proofs.Encoding

open Sys2Proof Sys2Proof.Machine Sys2Proof.Laws.Word Sys2Proof.Proofs.Memory

/-! ### The fields of the words of the formats (`wordXNN` stands with the stores, in `Proofs.Memory`) -/

theorem opField_wordNNN (op : BitVec 4) (nnn : Addr) : opField (wordNNN op nnn) = op := by
  apply BitVec.eq_of_toNat_eq
  rw [opField_toNat, wordNNN_toNat]
  omega

theorem nnnField_wordNNN (op : BitVec 4) (nnn : Addr) : nnnField (wordNNN op nnn) = nnn := by
  apply BitVec.eq_of_toNat_eq
  rw [nnnField_toNat, wordNNN_toNat]
  omega

theorem opField_wordXYN (op : BitVec 4) (x y : RegIdx) (n : BitVec 4) : opField (wordXYN op x y n) = op := by
  apply BitVec.eq_of_toNat_eq
  rw [opField_toNat, wordXYN_toNat]
  omega

theorem xField_wordXYN (op : BitVec 4) (x y : RegIdx) (n : BitVec 4) : xField (wordXYN op x y n) = x := by
  apply Fin.ext
  rw [xField_val, wordXYN_toNat]
  omega

theorem yField_wordXYN (op : BitVec 4) (x y : RegIdx) (n : BitVec 4) : yField (wordXYN op x y n) = y := by
  apply Fin.ext
  rw [yField_val, wordXYN_toNat]
  omega

theorem nField_wordXYN (op : BitVec 4) (x y : RegIdx) (n : BitVec 4) : nField (wordXYN op x y n) = n := by
  apply BitVec.eq_of_toNat_eq
  rw [nField_toNat, wordXYN_toNat]
  omega

/-! ### A word from its fields -/

theorem wordNNN_of_opField {w : Word} {op : BitVec 4} (h : opField w = op) : wordNNN op (nnnField w) = w := by
  subst h
  apply BitVec.eq_of_toNat_eq
  rw [wordNNN_toNat, opField_toNat, nnnField_toNat]
  omega

theorem wordXNN_of_opField {w : Word} {op : BitVec 4} (h : opField w = op) :
    wordXNN op (xField w) (nnField w) = w := by
  subst h
  apply BitVec.eq_of_toNat_eq
  rw [wordXNN_toNat, opField_toNat, xField_val, nnField_toNat]
  omega

theorem wordXNN_of_fields {w : Word} {op : BitVec 4} {nn : Byte} (h : opField w = op) (hnn : nnField w = nn) :
    wordXNN op (xField w) nn = w := hnn ▸ wordXNN_of_opField h

theorem wordXYN_of_opField {w : Word} {op : BitVec 4} (h : opField w = op) :
    wordXYN op (xField w) (yField w) (nField w) = w := by
  subst h
  apply BitVec.eq_of_toNat_eq
  rw [wordXYN_toNat, opField_toNat, xField_val, yField_val, nField_toNat]
  omega

theorem wordXYN_of_fields {w : Word} {op n : BitVec 4} (h : opField w = op) (hn : nField w = n) :
    wordXYN op (xField w) (yField w) n = w := hn ▸ wordXYN_of_opField h

/-! ### Decoding an encoded instruction -/

theorem decodeWord_encode (i : Instr) : decodeWord (encode i) = .ok i := by
  cases i with
  | ret => rfl
  | jp | call | ldI | jpV0 =>
    simp only [encode, decodeWord, opField_wordNNN, nnnField_wordNNN]
  | seImm | sneImm | ldImm | addImm | rnd =>
    simp only [encode, decodeWord, opField_wordXNN, xField_wordXNN, nnField_wordXNN]
  | ldF | ldB | stRegs | ldRegs =>
    simp only [encode, decodeWord, decodeFamilyF, opField_wordXNN, xField_wordXNN, nnField_wordXNN]
  | seReg =>
    simp only [encode, decodeWord, opField_wordXYN, xField_wordXYN, yField_wordXYN, nField_wordXYN, if_true]
  | drw =>
    simp only [encode, decodeWord, opField_wordXYN, xField_wordXYN, yField_wordXYN, nField_wordXYN]
  | ldReg | orReg | andReg | xorReg | addReg | subReg =>
    simp only [encode, decodeWord, decodeFamily8, opField_wordXYN, xField_wordXYN, yField_wordXYN,
      nField_wordXYN]

/-- Settles O1: the two bytes are the word of the instruction again. -/
theorem decodeEncodeRoundTrip : Obligations.DecodeEncodeRoundTrip := by
  intro i rest
  have hword : decodeBytes (encodeBytes i ++ rest) = (decodeWord (encode i)).map (fun j => (j, rest)) :=
    congrArg (fun w => (decodeWord w).map (fun j => (j, rest))) (wordOfBytes_split (encode i))
  rw [hword, decodeWord_encode]
  rfl

/-! ### What the decoder answers -/

/-- The table of R86, with the families and the secondary keys read as fields (R84). -/
theorem illegalWord_iff_fields (w : Word) :
    IllegalWord w ↔
      (opField w = 0x0#4 ∧ w ≠ 0x00EE#16) ∨
      (opField w = 0x5#4 ∧ nField w ≠ 0x0#4) ∨
      (opField w = 0x8#4 ∧ nField w ≠ 0x0#4 ∧ nField w ≠ 0x1#4 ∧ nField w ≠ 0x2#4 ∧ nField w ≠ 0x3#4 ∧
        nField w ≠ 0x4#4 ∧ nField w ≠ 0x5#4) ∨
      opField w = 0x9#4 ∨ opField w = 0xE#4 ∨
      (opField w = 0xF#4 ∧ nnField w ≠ 0x29#8 ∧ nnField w ≠ 0x33#8 ∧ nnField w ≠ 0x55#8 ∧
        nnField w ≠ 0x65#8) := by
  have := w.isLt
  simp only [IllegalWord, ne_eq, ← BitVec.toNat_inj, opField_toNat, nField_toNat, nnField_toNat,
    BitVec.toNat_ofNat]
  refine or_congr ?_ (or_congr ?_ (or_congr ?_ (or_congr ?_ (or_congr ?_ ?_)))) <;> omega

/-- What a decoder should answer for a word: an instruction that the word is the encoding of, or the rejection
of a word in the table of illegal words. -/
def Accounted (w : Word) (d : Except DecodeReject Instr) : Prop :=
  (∃ i, d = .ok i ∧ encode i = w) ∨ (d = .error (.illegal w) ∧ IllegalWord w)

theorem Accounted.legal {w : Word} {i : Instr} (h : encode i = w) : Accounted w (.ok i) := .inl ⟨i, rfl, h⟩

theorem Accounted.illegal {w : Word} (h : IllegalWord w) : Accounted w (.error (.illegal w)) := .inr ⟨rfl, h⟩

theorem decodeFamily8_accounted {w : Word} (hop : opField w = 0x8#4) : Accounted w (decodeFamily8 w) := by
  unfold decodeFamily8
  split
  case h_7 h0 h1 h2 h3 h4 h5 =>
    exact .illegal ((illegalWord_iff_fields w).mpr (.inr (.inr (.inl ⟨hop, h0, h1, h2, h3, h4, h5⟩))))
  all_goals
    next hn => exact .legal (wordXYN_of_fields hop hn)

theorem decodeFamilyF_accounted {w : Word} (hop : opField w = 0xF#4) : Accounted w (decodeFamilyF w) := by
  unfold decodeFamilyF
  split
  case h_5 h29 h33 h55 h65 =>
    exact .illegal ((illegalWord_iff_fields w).mpr
      (.inr (.inr (.inr (.inr (.inr ⟨hop, h29, h33, h55, h65⟩))))))
  all_goals
    next hnn => exact .legal (wordXNN_of_fields hop hnn)

/-- The families that the decoder does not name are 9 and E. -/
theorem eq_9_or_E_of_unnamed (op : BitVec 4) : op ≠ 0x0#4 → op ≠ 0x1#4 → op ≠ 0x2#4 → op ≠ 0x3#4 →
    op ≠ 0x4#4 → op ≠ 0x5#4 → op ≠ 0x6#4 → op ≠ 0x7#4 → op ≠ 0x8#4 → op ≠ 0xA#4 → op ≠ 0xB#4 →
    op ≠ 0xC#4 → op ≠ 0xD#4 → op ≠ 0xF#4 → op = 0x9#4 ∨ op = 0xE#4 := by
  revert op; decide

theorem decodeWord_accounted (w : Word) : Accounted w (decodeWord w) := by
  unfold decodeWord
  split
  case h_1 hop =>
    split
    · next hw => exact .legal hw.symm
    · next hw => exact .illegal ((illegalWord_iff_fields w).mpr (.inl ⟨hop, hw⟩))
  case h_6 hop =>
    split
    · next hn => exact .legal (wordXYN_of_fields hop hn)
    · next hn => exact .illegal ((illegalWord_iff_fields w).mpr (.inr (.inl ⟨hop, hn⟩)))
  case h_9 hop => exact decodeFamily8_accounted hop
  case h_13 hop => exact .legal (wordXYN_of_opField hop)
  case h_14 hop => exact decodeFamilyF_accounted hop
  case h_2 hop | h_3 hop | h_10 hop | h_11 hop => exact .legal (wordNNN_of_opField hop)
  case h_4 hop | h_5 hop | h_7 hop | h_8 hop | h_12 hop => exact .legal (wordXNN_of_opField hop)
  case h_15 h0 h1 h2 h3 h4 h5 h6 h7 h8 hA hB hC hD hF =>
    have hop := eq_9_or_E_of_unnamed _ h0 h1 h2 h3 h4 h5 h6 h7 h8 hA hB hC hD hF
    exact .illegal ((illegalWord_iff_fields w).mpr (.inr (.inr (.inr (hop.imp_right .inl)))))

theorem encode_of_decodeWord {w : Word} {i : Instr} (h : decodeWord w = .ok i) : encode i = w := by
  obtain ⟨j, hj, hw⟩ | ⟨hreject, -⟩ := decodeWord_accounted w
  · obtain rfl : i = j := Except.ok.inj (h.symm.trans hj)
    exact hw
  · cases h.symm.trans hreject

/-- Settles O2, from what the decoder answers for each word. -/
theorem encodeDecodeRoundTrip : Obligations.EncodeDecodeRoundTrip := fun _ _ => encode_of_decodeWord

/-- The decoder reads an instruction exactly from that instruction's own word. -/
theorem decodeWord_eq_ok_iff {w : Word} {i : Instr} : decodeWord w = .ok i ↔ encode i = w :=
  ⟨encode_of_decodeWord, fun h => h ▸ decodeWord_encode i⟩

/-! ### The table of illegal words -/

theorem not_illegalWord_encode (i : Instr) : ¬ IllegalWord (encode i) := by
  rw [illegalWord_iff_fields]
  cases i with
  | ret => decide
  | jp | call | ldI | jpV0 => simp [encode, opField_wordNNN]
  | seImm | sneImm | ldImm | addImm | rnd | ldF | ldB | stRegs | ldRegs =>
    simp [encode, opField_wordXNN, nnField_wordXNN]
  | seReg | ldReg | orReg | andReg | xorReg | addReg | subReg | drw =>
    simp [encode, opField_wordXYN, nField_wordXYN]

theorem not_illegalWord_of_decodeWord {w : Word} {i : Instr} (h : decodeWord w = .ok i) : ¬ IllegalWord w :=
  encode_of_decodeWord h ▸ not_illegalWord_encode i

/-- Settles O3: a word is either read and legal, or rejected and in the table. -/
theorem illegalWordsAreTheTable : Obligations.IllegalWordsAreTheTable := by
  intro w
  obtain ⟨i, hi, -⟩ | ⟨hreject, hill⟩ := decodeWord_accounted w
  · have hlegal := not_illegalWord_of_decodeWord hi
    have hread : decodeWord w ≠ .error (.illegal w) := fun h => by cases hi.symm.trans h
    exact ⟨iff_of_false hread hlegal, iff_of_true ⟨i, hi⟩ hlegal⟩
  · have hunread : ¬ ∃ i, decodeWord w = .ok i := fun ⟨i, hi⟩ => not_illegalWord_of_decodeWord hi hill
    exact ⟨iff_of_true hreject hill, iff_of_false hunread (not_not_intro hill)⟩

/-! ### The rows by mask and match -/

/-- The instruction of the row of the given one with its operands read from a word (R81). -/
def ofRow : Instr → Word → Instr
  | .jp _, w => .jp (nnnField w)
  | .call _, w => .call (nnnField w)
  | .ret, _ => .ret
  | .seImm _ _, w => .seImm (xField w) (nnField w)
  | .sneImm _ _, w => .sneImm (xField w) (nnField w)
  | .seReg _ _, w => .seReg (xField w) (yField w)
  | .ldImm _ _, w => .ldImm (xField w) (nnField w)
  | .addImm _ _, w => .addImm (xField w) (nnField w)
  | .ldReg _ _, w => .ldReg (xField w) (yField w)
  | .orReg _ _, w => .orReg (xField w) (yField w)
  | .andReg _ _, w => .andReg (xField w) (yField w)
  | .xorReg _ _, w => .xorReg (xField w) (yField w)
  | .addReg _ _, w => .addReg (xField w) (yField w)
  | .subReg _ _, w => .subReg (xField w) (yField w)
  | .ldI _, w => .ldI (nnnField w)
  | .jpV0 _, w => .jpV0 (nnnField w)
  | .rnd _ _, w => .rnd (xField w) (nnField w)
  | .drw _ _ _, w => .drw (xField w) (yField w) (nField w)
  | .ldF _, w => .ldF (xField w)
  | .ldB _, w => .ldB (xField w)
  | .stRegs _, w => .stRegs (xField w)
  | .ldRegs _, w => .ldRegs (xField w)

theorem opcodeMask_ofRow (row : Instr) (w : Word) : opcodeMask (ofRow row w) = opcodeMask row := by
  cases row <;> rfl

theorem opcodeMatch_ofRow (row : Instr) (w : Word) : opcodeMatch (ofRow row w) = opcodeMatch row := by
  cases row <;> rfl

/-- A field that the mask covers has in the word its value in the match. -/
theorem extractLsb'_eq_of_mask {w mask value : Word} (start len : Nat) (h : w &&& mask = value)
    (hmask : mask.extractLsb' start len = BitVec.allOnes len) :
    w.extractLsb' start len = value.extractLsb' start len := by
  rw [← h, BitVec.extractLsb'_and, hmask, BitVec.and_allOnes]

theorem opField_of_mask {w : Word} {op : BitVec 4} (h : w &&& 0xF000#16 = op ++ 0#12) : opField w = op :=
  (extractLsb'_eq_of_mask 12 4 h rfl).trans (opField_wordNNN op 0#12)

/-- The rows whose secondary key is `n`. -/
theorem wordXYN_of_maskN {w : Word} {op n : BitVec 4}
    (h : w &&& 0xF00F#16 = op ++ (0#4 : BitVec 4) ++ (0#4 : BitVec 4) ++ n) :
    wordXYN op (xField w) (yField w) n = w :=
  wordXYN_of_fields ((extractLsb'_eq_of_mask 12 4 h rfl).trans (opField_wordXYN op 0 0 n))
    ((extractLsb'_eq_of_mask 0 4 h rfl).trans (nField_wordXYN op 0 0 n))

/-- The rows whose secondary key is `nn`. -/
theorem wordXNN_of_maskNN {w : Word} {op : BitVec 4} {nn : Byte}
    (h : w &&& 0xF0FF#16 = op ++ (0#4 : BitVec 4) ++ nn) : wordXNN op (xField w) nn = w :=
  wordXNN_of_fields ((extractLsb'_eq_of_mask 12 4 h rfl).trans (opField_wordXNN op 0 nn))
    ((extractLsb'_eq_of_mask 0 8 h rfl).trans (nnField_wordXNN op 0 nn))

theorem encode_ofRow {w : Word} {row : Instr} (h : w &&& opcodeMask row = opcodeMatch row) :
    encode (ofRow row w) = w := by
  cases row with
  | ret => exact (BitVec.and_allOnes.symm.trans h).symm
  | jp | call | ldI | jpV0 => exact wordNNN_of_opField (opField_of_mask h)
  | seImm | sneImm | ldImm | addImm | rnd => exact wordXNN_of_opField (opField_of_mask h)
  | drw => exact wordXYN_of_opField (opField_of_mask h)
  | seReg | ldReg | orReg | andReg | xorReg | addReg | subReg => exact wordXYN_of_maskN h
  | ldF | ldB | stRegs | ldRegs => exact wordXNN_of_maskNN h

/-- The word of an instruction has the fixed bits of its row. -/
theorem encode_and_mask (i : Instr) : encode i &&& opcodeMask i = opcodeMatch i := by
  cases i with
  | ret => rfl
  | jp | call | ldI | jpV0 => exact Laws.OpcodeRow.wordNNN_mask _ _
  | seImm | sneImm | ldImm | addImm | rnd => exact Laws.OpcodeRow.wordXNN_mask _ _ _
  | drw => exact Laws.OpcodeRow.wordXYN_mask _ _ _ _
  | seReg | ldReg | orReg | andReg | xorReg | addReg | subReg => exact Laws.OpcodeRow.wordXYN_maskN _ _ _ _
  | ldF | ldB | stRegs | ldRegs => exact Laws.OpcodeRow.wordXNN_maskNN _ _ _

/-- Settles O4: a word that matches a row is the encoding of that row's instruction with the word's fields. -/
theorem rowsMatchByMask : Obligations.RowsMatchByMask := by
  intro w row
  constructor
  · intro h
    exact ⟨ofRow row w, decodeWord_eq_ok_iff.mpr (encode_ofRow h), opcodeMask_ofRow row w,
      opcodeMatch_ofRow row w⟩
  · rintro ⟨i, hi, hmask, hmatch⟩
    rw [← hmask, ← hmatch, ← decodeWord_eq_ok_iff.mp hi]
    exact encode_and_mask i

/-! ### Sample words -/

/-- Settles O5: each legal word is the encoding of its instruction. -/
theorem sampleWordsDecode : Obligations.SampleWordsDecode :=
  ⟨decodeWord_encode (.jp 0xABC#12), decodeWord_encode (.call 0x456#12), decodeWord_encode .ret,
    decodeWord_encode (.seImm 3 0x2A#8), decodeWord_encode (.sneImm 3 0x01#8),
    decodeWord_encode (.seReg 1 2), decodeWord_encode (.ldImm 10 0x37#8),
    decodeWord_encode (.addImm 3 0x0A#8), decodeWord_encode (.subReg 10 11),
    decodeWord_encode (.ldI 0x2F0#12), decodeWord_encode (.jpV0 0x204#12),
    decodeWord_encode (.rnd 3 0x0F#8), decodeWord_encode (.drw 1 2 0xF#4),
    decodeWord_encode (.ldRegs 2), rfl, rfl⟩

end Sys2Proof.Proofs.Encoding

/-! Control transfer (40_flow.md): a jump or a skip writes PC alone; a call and a return write PC, SP and at
most the one stack entry pushed (R107), or halt the core. -/

namespace Sys2Proof.Proofs.Flow

open Sys2Proof Sys2Proof.Machine Sys2Proof.Laws

/-! ### Instructions that write PC alone -/

theorem onlyPcAndV_setPC (s : State) (a : Addr) : OnlyPcAndV [] s (s.setPC a) :=
  ⟨fun _ _ => rfl, fun _ => rfl, rfl, ⟨rfl, rfl⟩, rfl, rfl, rfl, rfl, rfl, rfl, rfl, rfl⟩

theorem onlyPcAndV_skipIf (s : State) (c : Bool) : OnlyPcAndV [] s (s.skipIf c) := onlyPcAndV_setPC s _

/-- A taken skip passes over the next instruction (R24). -/
theorem skipIf_pc_of_true (s : State) {c : Bool} (h : c = true) :
    (s.skipIf c).pc.toNat = (s.pc.toNat + 4) % 4096 := by
  subst h
  exact Ops.skipPC_toNat s

theorem pcIsNext_skipIf_of_false (s : State) {c : Bool} (h : c = false) : PcIsNext s (s.skipIf c) := by
  subst h
  exact Ops.nextPC_toNat s

/-- The sum of a byte and an address wraps at 4096 (D11). -/
theorem indexedTarget_toNat (s : State) (nnn : Addr) :
    (s.indexedTarget nnn).toNat = ((s.getV 0).toNat + nnn.toNat) % 4096 := by
  have hlt : (s.getV 0).toNat < 2 ^ 12 := (s.getV 0).isLt.trans (by decide)
  rw [State.indexedTarget, BitVec.toNat_add, BitVec.toNat_setWidth, Nat.mod_eq_of_lt hlt]

/-! ### Call and return -/

/-- What a return leaves when the stack is not empty: SP one less, PC past the entry last pushed. -/
def popped (s : State) : State :=
  { s with sp := ⟨s.sp.val - 1, by omega⟩, pc := s.stack[s.sp.val - 1] + 2#12 }

theorem exec_call_of_room {s : State} (nnn : Addr) (h : s.sp.val < 16) :
    exec (.call nnn) s = .next ((s.push h).setPC nnn) := dif_pos h

theorem exec_call_of_full {s : State} (nnn : Addr) (h : s.sp.val = 16) :
    exec (.call nnn) s = .next (takeFault .stackOverflow (encode (.call nnn)) 16#13 s) :=
  dif_neg (Nat.not_lt.mpr h.ge)

theorem exec_ret_of_nonempty {s : State} (h : s.sp.val ≠ 0) : exec .ret s = .next (popped s) := dif_neg h

theorem exec_ret_of_empty {s : State} (h : s.sp.val = 0) :
    exec .ret s = .next (takeFault .stackUnderflow (encode .ret) 0#13 s) := dif_pos h

theorem push_stack_getElem (s : State) (h : s.sp.val < 16) (k : Fin 16) :
    (s.push h).stack[k.val] = if k.val = s.sp.val then s.pc else s.stack[k.val] := by
  simp only [StateFields.push_stack, Vector.getElem_set, eq_comm]

theorem popped_pc_toNat (s : State) :
    (popped s).pc.toNat = (s.stack[s.sp.val - 1].toNat + 2) % 4096 := BitVec.toNat_add _ _

theorem keepsRest_call (s : State) (nnn : Addr) (h : s.sp.val < 16) : KeepsRest s ((s.push h).setPC nnn) :=
  ⟨rfl, rfl, rfl, rfl, rfl, rfl, rfl⟩

theorem keepsRest_popped (s : State) : KeepsRest s (popped s) := ⟨rfl, rfl, rfl, rfl, rfl, rfl, rfl⟩

/-- The entry that a return after a call pops is the call's own address. -/
theorem popped_call_pc (s : State) (nnn : Addr) (h : s.sp.val < 16) :
    (popped ((s.push h).setPC nnn)).pc = s.nextPC := by
  have hentry : (s.push h).stack[s.sp.val] = s.pc := Vector.getElem_set_self h
  exact congrArg (· + 2#12) hentry

/-! ### The obligations -/

/-- Settles O7: with room on the stack a call is a push and a jump, else a fault. -/
theorem callPushesItsAddress : Obligations.CallPushesItsAddress := by
  intro nnn s
  refine ⟨Word.wordNNN_toNat 0x2#4 nnn, fun hne => ?_, fun hfull => ⟨_, exec_call_of_full nnn hfull, rfl⟩⟩
  have hroom : s.sp.val < 16 := by omega
  exact ⟨_, exec_call_of_room nnn hroom, rfl, rfl, push_stack_getElem s hroom, fun _ _ => rfl,
    fun _ => rfl, rfl, rfl, keepsRest_call s nnn hroom⟩

/-- Settles O8: with an entry on the stack a return is a pop, else a fault. -/
theorem returnGoesPastCall : Obligations.ReturnGoesPastCall := by
  intro s
  refine ⟨rfl, fun hne => ?_, fun hempty => ⟨_, exec_ret_of_empty hempty, rfl⟩⟩
  refine ⟨_, exec_ret_of_nonempty hne, Nat.sub_one_add_one hne, ?_, rfl, fun _ _ => rfl, fun _ => rfl,
    rfl, rfl, keepsRest_popped s⟩
  rintro ⟨k, hk⟩ rfl
  exact popped_pc_toNat s

/-- Settles O9: the return pops what the call pushed. -/
theorem callThenReturnResumes : Obligations.CallThenReturnResumes := by
  intro nnn s hne
  have hroom : s.sp.val < 16 := by omega
  refine ⟨_, _, exec_call_of_room nnn hroom, exec_ret_of_nonempty (Nat.succ_ne_zero _), ?_, rfl,
    fun _ _ => rfl, fun _ => rfl⟩
  rw [PcIsNext, popped_call_pc, Ops.nextPC_toNat]

/-- Settles O10: a skip under `V[x] = nn`. -/
theorem skipIfEqualImmediate : Obligations.SkipIfEqualImmediate := fun x nn s =>
  ⟨Word.wordXNN_toNat 0x3#4 x nn, _, rfl, onlyPcAndV_skipIf s _,
    fun heq => skipIf_pc_of_true s (beq_iff_eq.mpr heq),
    fun hne => pcIsNext_skipIf_of_false s (beq_eq_false_iff_ne.mpr hne)⟩

/-- Settles O11: a skip under `V[x] ≠ nn`. -/
theorem skipIfDiffersImmediate : Obligations.SkipIfDiffersImmediate := fun x nn s =>
  ⟨Word.wordXNN_toNat 0x4#4 x nn, _, rfl, onlyPcAndV_skipIf s _,
    fun hne => skipIf_pc_of_true s (bne_iff_ne.mpr hne),
    fun heq => pcIsNext_skipIf_of_false s (bne_eq_false_iff_eq.mpr heq)⟩

/-- Settles O12: a skip under `V[x] = V[y]`, which x = y always meets; the words with n not 0 are in the
table of illegal words. -/
theorem skipIfEqualRegisters : Obligations.SkipIfEqualRegisters := by
  intro x y s
  have hskip (heq : s.getV x = s.getV y) :
      (s.skipIf (s.getV x == s.getV y)).pc.toNat = (s.pc.toNat + 4) % 4096 :=
    skipIf_pc_of_true s (beq_iff_eq.mpr heq)
  refine ⟨Word.wordXYN_toNat 0x5#4 x y 0x0#4, fun w hlo hhi hn => ?_, _, rfl, onlyPcAndV_skipIf s _, hskip,
    fun hne => pcIsNext_skipIf_of_false s (beq_eq_false_iff_ne.mpr hne), fun hxy => hskip (by rw [hxy])⟩
  obtain ⟨hreject, -⟩ := Encoding.illegalWordsAreTheTable w
  exact hreject.mpr (.inr (.inl ⟨hlo, hhi, hn⟩))

/-- Settles O6: a jump writes PC alone. -/
theorem jumpSetsPc : Obligations.JumpSetsPc := fun nnn s =>
  ⟨Word.wordNNN_toNat 0x1#4 nnn, _, rfl, rfl, onlyPcAndV_setPC s nnn⟩

/-- Settles O13: a jump to the indexed target writes PC alone. -/
theorem indexedJumpAddsV0 : Obligations.IndexedJumpAddsV0 := fun nnn s =>
  ⟨_, rfl, indexedTarget_toNat s nnn, onlyPcAndV_setPC s _⟩

end Sys2Proof.Proofs.Flow

/-! Register load, arithmetic, logic and random (41_alu.md): every form is `loadV` or `loadFlagged`, whose
frames are in Laws/Ops.lean; what is left to say is the value and the flag of each. -/

namespace Sys2Proof.Proofs.Alu

open Sys2Proof Sys2Proof.Machine Sys2Proof.Laws

/-! ### Values and flags -/

/-- Wrapping subtraction is the non-negative remainder of the difference (R127). -/
theorem sub_toNat_emod (a b : Byte) : ((a - b).toNat : Int) = ((a.toNat : Int) - (b.toNat : Int)) % 256 := by
  have ha := a.isLt
  have hb := b.isLt
  rw [BitVec.toNat_sub]
  omega

/-- A masked byte has no bit outside the mask (R128). -/
theorem getLsbD_and_of_mask_false (b : Byte) {mask : Byte} {k : Nat} (h : mask.getLsbD k = false) :
    (b &&& mask).getLsbD k = false := by
  rw [BitVec.getLsbD_and, h, Bool.and_false]

theorem flagByte_decide (p : Prop) [Decidable p] : flagByte (decide p) = if p then 1#8 else 0#8 := by
  simp only [flagByte, decide_eq_true_eq]

theorem carryFlag_eq (a b : Byte) : carryFlag a b = if a.toNat + b.toNat > 255 then 1#8 else 0#8 :=
  flagByte_decide _

theorem noBorrowFlag_eq (a b : Byte) : noBorrowFlag a b = if a.toNat ≥ b.toNat then 1#8 else 0#8 :=
  flagByte_decide _

/-! ### Register loads -/

theorem getV_loadV (s : State) (x q : RegIdx) (b : Byte) :
    (s.loadV x b).getV q = if q = x then b else s.getV q := Ops.getV_setV s x q b

/-- The register copied from stays, also where it is the one written (R122). -/
theorem getV_loadV_source (s : State) (x y : RegIdx) : (s.loadV x (s.getV y)).getV y = s.getV y := by
  rw [getV_loadV, ite_self]

/-- A register copied to itself: no register changes (R122). -/
theorem keepsV_loadV_self (s : State) (x : RegIdx) : KeepsV [] s (s.loadV x (s.getV x)) := by
  intro r _
  rw [getV_loadV]
  split
  case isTrue hr => rw [hr]
  case isFalse => rfl

/-! ### The obligations -/

/-- Settles O15: the sum of bytes wraps, and `loadV` writes no flag. -/
theorem addImmediateWrapsWithoutFlag : Obligations.AddImmediateWrapsWithoutFlag := fun x nn s =>
  ⟨Word.wordXNN_toNat 0x7#4 x nn, _, rfl, (Ops.loadV_frame s x (s.getV x + nn)).imp_left
    fun hv => (congrArg BitVec.toNat hv).trans (BitVec.toNat_add _ _)⟩

/-- Settles O17: bit by bit, and `loadV` writes no flag. -/
theorem logicIsBitwiseWithoutFlag : Obligations.LogicIsBitwiseWithoutFlag := by
  intro x y s
  refine ⟨⟨_, rfl, (Ops.loadV_frame s x (s.getV x ||| s.getV y)).imp_left fun hv k _ => ?_⟩,
    ⟨_, rfl, (Ops.loadV_frame s x (s.getV x &&& s.getV y)).imp_left fun hv k _ => ?_⟩,
    ⟨_, rfl, (Ops.loadV_frame s x (s.getV x ^^^ s.getV y)).imp_left fun hv k _ => ?_⟩⟩
  · rw [hv, BitVec.getLsbD_or]
  · rw [hv, BitVec.getLsbD_and]
  · rw [hv, BitVec.getLsbD_xor]

/-- Settles O18: the sum wraps, and for x other than F the flag written first stays. -/
theorem addSetsCarry : Obligations.AddSetsCarry := by
  intro x y s
  obtain ⟨hv, hflag, hframe⟩ :=
    Ops.loadFlagged_frame s x (carryFlag (s.getV x) (s.getV y)) (s.getV x + s.getV y)
  refine ⟨_, rfl, ?_, fun hx => (hflag hx).trans (carryFlag_eq _ _), hframe⟩
  rw [hv, BitVec.toNat_add]

/-- Settles O19: the difference wraps, and for x other than F the flag written first stays. -/
theorem subtractSetsNoBorrow : Obligations.SubtractSetsNoBorrow := by
  intro x y s
  obtain ⟨hv, hflag, hframe⟩ :=
    Ops.loadFlagged_frame s x (noBorrowFlag (s.getV x) (s.getV y)) (s.getV x - s.getV y)
  refine ⟨_, rfl, ?_, fun hx => (hflag hx).trans (noBorrowFlag_eq _ _), hframe⟩
  rw [hv, sub_toNat_emod]

/-- Settles O20: the input is masked, and a submask of nn supplied as the input is the result. -/
theorem randomIsMaskedInput : Obligations.RandomIsMaskedInput := by
  intro x nn s
  constructor
  · obtain ⟨hv, hframe⟩ := Ops.loadV_frame s x (s.rndIn &&& nn)
    refine ⟨_, rfl, hv, fun k _ hk => ?_, hframe⟩
    rw [hv, getLsbD_and_of_mask_false s.rndIn hk]
  · intro m hm
    obtain ⟨hv, -⟩ :=
      Ops.loadV_frame { s with inputs := { rnd := m, stop := false } :: s.inputs } x (m &&& nn)
    exact ⟨_, _, rfl, hv.trans hm⟩

/-- Settles O14: `loadV` writes the register and PC alone. -/
theorem loadImmediateSetsRegister : Obligations.LoadImmediateSetsRegister := fun x nn s =>
  ⟨Word.wordXNN_toNat 0x6#4 x nn, _, rfl, Ops.loadV_frame s x nn⟩

/-- Settles O16: the value copied is the one y keeps, so with x = y none changes. -/
theorem copyRegister : Obligations.CopyRegister := by
  intro x y s
  obtain ⟨hv, hpc, hframe⟩ := Ops.loadV_frame s x (s.getV y)
  refine ⟨Word.wordXYN_toNat 0x8#4 x y 0x0#4, _, rfl, hv, getV_loadV_source s x y, ?_, hpc, hframe⟩
  rintro rfl
  exact keepsV_loadV_self s x

end Sys2Proof.Proofs.Alu

/-! Index register and memory (42_index_memory.md): what each of `ANNN`, `FX29`, `FX33`, `FX55`, `FX65` leaves
in I, in memory and in the registers, with the frame they share; or the fault where it has one. -/

namespace Sys2Proof.Proofs.IndexMemory

open Sys2Proof Sys2Proof.Machine Sys2Proof.Laws Sys2Proof.Proofs.Effect

/-! ### An instruction that faults and one that does not -/

theorem exec_of_no_fault {i : Instr} {s : State} (h : faultOf i s = none) :
    exec i s = .next (effect i s) := by
  rw [exec_eq, result_of_no_fault h]

/-- A fault leaves the old state but for Run, whose record has the fault's cause and information (R199). -/
theorem exec_halts_of_fault {i : Instr} {s : State} {c : Cause} {info : BitVec 13}
    (h : faultOf i s = some (c, info)) :
    ∃ r, exec i s = .next { s with run := .halted r } ∧ r.cause = c ∧ r.info = info := by
  refine ⟨{ cause := c, word := encode i, pc := s.pc, info := info }, ?_, rfl, rfl⟩
  rw [exec_eq, result_of_fault h, takeFault]

theorem effect_keepsRest (i : Instr) (s : State) : KeepsRest s (effect i s) := by
  cases i with
  | stRegs x =>
    rw [effect, Ops.storeBlock_frame]
    exact ⟨rfl, rfl, rfl, rfl, rfl, rfl, rfl⟩
  | ldRegs x =>
    rw [effect, Ops.loadBlock_frame]
    exact ⟨rfl, rfl, rfl, rfl, rfl, rfl, rfl⟩
  | _ => exact ⟨rfl, rfl, rfl, rfl, rfl, rfl, rfl⟩

/-- What the effects have in common, those of control transfer and the draw apart. -/
theorem effect_frame {i : Instr} (s : State) (hflow : ¬ isFlow i) (hdraw : ∀ x y n, i ≠ .drw x y n) :
    (effect i s).pc = s.nextPC ∧ KeepsStack s (effect i s) ∧ (effect i s).disp = s.disp ∧
      KeepsRest s (effect i s) := by
  have hcall : ∀ nnn, i ≠ .call nnn := by rintro nnn rfl; exact hflow trivial
  have hret : i ≠ .ret := by rintro rfl; exact hflow trivial
  exact ⟨effect_pc_of_not_flow s hflow, ⟨effect_stack s hcall, effect_sp s hcall hret⟩,
    effect_disp s hdraw, effect_keepsRest i s⟩

/-- The words of family F, in the order of the statements. -/
theorem wordF_toNat (x : RegIdx) (nn : Byte) :
    (wordXNN 0xF#4 x nn).toNat = 0xF000 + nn.toNat + x.val * 256 :=
  (Word.wordXNN_toNat 0xF#4 x nn).trans (Nat.add_right_comm _ _ _)

/-! ### The font address (R141) -/

/-- The glyph of a digit lies in the font table, so its address does not wrap (R6). -/
theorem glyphAddr_toNat {s : State} {d : Byte} (hcfg : s.cfg.wellFormed = true) (hd : d.toNat ≤ 0xF) :
    (s.glyphAddr d).toNat = s.cfg.fontBase.toNat + 5 * d.toNat := by
  have hfont := Memory.fontEnd_le_entry hcfg
  rw [State.glyphAddr, BitVec.toNat_add, BitVec.toNat_ofNat]
  omega

/-! ### The digits (R142) -/

theorem hundredsDigit_toNat (b : Byte) : (hundredsDigit b).toNat = b.toNat / 100 :=
  Nat.mod_eq_of_lt ((Nat.div_le_self _ _).trans_lt b.isLt)

theorem tensDigit_toNat (b : Byte) : (tensDigit b).toNat = b.toNat / 10 % 10 :=
  Nat.mod_eq_of_lt ((Nat.mod_lt _ (by decide)).trans (by decide))

theorem onesDigit_toNat (b : Byte) : (onesDigit b).toNat = b.toNat % 10 :=
  Nat.mod_eq_of_lt ((Nat.mod_lt _ (by decide)).trans (by decide))

theorem effAddr_inj (s : State) {j k : Nat} : s.effAddr j = s.effAddr k ↔ j = k := Nat.add_left_cancel_iff

/-- What the digit stores leave at I, I + 1, I + 2. -/
theorem storeDigits_digits (s : State) (b : Byte) :
    (s.storeDigits b).readByte (s.effAddr 0) = hundredsDigit b ∧
      (s.storeDigits b).readByte (s.effAddr 1) = tensDigit b ∧
      (s.storeDigits b).readByte (s.effAddr 2) = onesDigit b := by
  simp [Ops.readByte_storeDigits, effAddr_inj]

/-! ### Register blocks (R143, R144) -/

theorem regAt_self (r : RegIdx) : regAt r.val = r := Fin.ext (Ops.regAt_val r.val r.isLt)

/-- The byte that `FX55` leaves for a register of its block. -/
theorem readByte_effect_stRegs (s : State) {x r : RegIdx} (h : r.val ≤ x.val) :
    (effect (.stRegs x) s).readByte (s.effAddr r.val) = s.getV r := by
  have hr : s.i.toNat ≤ s.i.toNat + r.val ∧ s.i.toNat + r.val < s.i.toNat + (x.val + 1) := by omega
  rw [effect, Ops.readByte_advance, State.effAddr, Ops.readByte_storeBlock s _ x.isLt, if_pos hr,
    Nat.add_sub_cancel_left, regAt_self]

/-- The value that `FX65` leaves in a register of its block. -/
theorem getV_effect_ldRegs (s : State) {x r : RegIdx} (h : r.val ≤ x.val) :
    (effect (.ldRegs x) s).getV r = s.readByte (s.i.toNat + r.val) :=
  (Ops.getV_loadBlock s _ x.isLt r).trans (if_pos (Nat.lt_succ_of_le h))

theorem getV_effect_ldRegs_of_lt (s : State) {x r : RegIdx} (h : x.val < r.val) :
    (effect (.ldRegs x) s).getV r = s.getV r :=
  effect_getV s (Nat.not_le.mpr h)

/-! ### Where they fault (R194, R195) -/

theorem faultOf_ldF_of_le {s : State} {x : RegIdx} (h : (s.getV x).toNat ≤ 0xF) :
    faultOf (.ldF x) s = none := if_neg (Nat.not_lt.mpr h)

theorem faultOf_ldF_of_gt {s : State} {x : RegIdx} (h : (s.getV x).toNat > 0xF) :
    faultOf (.ldF x) s = some (.invalidOperand, (s.getV x).setWidth 13) := if_pos h

theorem faultOf_ldRegs_of_le {s : State} {x : RegIdx} (h : s.i.toNat + x.val ≤ 0xFFF) :
    faultOf (.ldRegs x) s = none :=
  if_pos ((Ops.blockFits_iff s (x.val + 1)).mpr (by omega))

theorem blockFits_ne_true {s : State} {k : Nat} (h : s.i.toNat + k > 0xFFF) :
    ¬ s.blockFits (k + 1) = true := by
  rw [Ops.blockFits_iff]
  omega

theorem faultOf_ldB_of_gt {s : State} (x : RegIdx) (h : s.i.toNat + 2 > 0xFFF) :
    faultOf (.ldB x) s = some (.addressOutOfRange, outOfRangeInfo) := if_neg (blockFits_ne_true h)

theorem faultOf_stRegs_of_gt {s : State} {x : RegIdx} (h : s.i.toNat + x.val > 0xFFF) :
    faultOf (.stRegs x) s = some (.addressOutOfRange, outOfRangeInfo) := if_neg (blockFits_ne_true h)

theorem faultOf_ldRegs_of_gt {s : State} {x : RegIdx} (h : s.i.toNat + x.val > 0xFFF) :
    faultOf (.ldRegs x) s = some (.addressOutOfRange, outOfRangeInfo) := if_neg (blockFits_ne_true h)

/-! ### The obligations -/

/-- Settles O22: the glyph address stays in the font table, and the record widens the register's value. -/
theorem fontAddressOfDigit : Obligations.FontAddressOfDigit := by
  intro x s hcfg
  refine ⟨wordF_toNat x 0x29#8, fun hle => ?_, fun hgt => ?_⟩
  · obtain ⟨hpc, hframe⟩ := effect_frame s (i := .ldF x) id nofun
    have hi : (s.glyphAddr (s.getV x)).toNat = s.cfg.fontBase.toNat + 5 * (s.getV x).toNat :=
      glyphAddr_toNat hcfg hle
    have hfont := Memory.fontEnd_le_entry hcfg
    exact ⟨_, exec_of_no_fault (faultOf_ldF_of_le hle), hi, hi.trans_lt (by omega), hpc,
      fun _ _ => effect_getV s id, effect_readByte s nofun nofun, hframe⟩
  · obtain ⟨r, hexec, hcause, hinfo⟩ := exec_halts_of_fault (faultOf_ldF_of_gt hgt)
    refine ⟨r, hexec, hcause, ?_⟩
    rw [hinfo, BitVec.toNat_setWidth_of_le (by decide)]

/-- Settles O23: the three digits are stored inside the block, or the block does not fit. -/
theorem bcdStoresThreeDigits : Obligations.BcdStoresThreeDigits := by
  intro x s
  refine ⟨wordF_toNat x 0x33#8, fun hle => ?_, fun hgt => exec_halts_of_fault (faultOf_ldB_of_gt x hgt)⟩
  obtain ⟨hpc, hframe⟩ := effect_frame s (i := .ldB x) id nofun
  obtain ⟨hhundreds, htens, hones⟩ := storeDigits_digits s (s.getV x)
  exact ⟨_, exec_of_no_fault (Memory.faultOf_ldB_of_le x hle),
    (congrArg BitVec.toNat hhundreds).trans (hundredsDigit_toNat _),
    (congrArg BitVec.toNat htens).trans (tensDigit_toNat _),
    (congrArg BitVec.toNat hones).trans (onesDigit_toNat _),
    storeDigits_keepsMemOutside s _, hpc, effect_i s nofun nofun, fun _ _ => effect_getV s id, hframe⟩

/-- Settles O24: the block of registers is stored, or does not fit. -/
theorem storeRegistersBlock : Obligations.StoreRegistersBlock := by
  intro x s
  refine ⟨wordF_toNat x 0x55#8, fun hle => ?_, fun hgt => exec_halts_of_fault (faultOf_stRegs_of_gt hgt)⟩
  obtain ⟨hpc, hframe⟩ := effect_frame s (i := .stRegs x) id nofun
  exact ⟨_, exec_of_no_fault (Memory.faultOf_stRegs_of_le hle), fun _ => readByte_effect_stRegs s,
    storeBlock_keepsMemOutside s x.isLt, hpc, effect_i s nofun nofun, fun _ _ => effect_getV s id, hframe⟩

/-- Settles O25: the block of registers is loaded, or does not fit. -/
theorem loadRegistersBlock : Obligations.LoadRegistersBlock := by
  intro x s
  refine ⟨wordF_toNat x 0x65#8, fun hle => ?_, fun hgt => exec_halts_of_fault (faultOf_ldRegs_of_gt hgt)⟩
  obtain ⟨hpc, hframe⟩ := effect_frame s (i := .ldRegs x) id nofun
  exact ⟨_, exec_of_no_fault (faultOf_ldRegs_of_le hle), fun _ => getV_effect_ldRegs s,
    fun _ => getV_effect_ldRegs_of_lt s, hpc, effect_readByte s nofun nofun, effect_i s nofun nofun, hframe⟩

/-- Settles O26: the store keeps I, so the load reads the bytes stored. -/
theorem storeThenLoadRestores : Obligations.StoreThenLoadRestores := by
  intro x s v' hle
  have hi : (effect (.stRegs x) s).i = s.i := effect_i s nofun nofun
  have hload : faultOf (.ldRegs x) { effect (.stRegs x) s with v := v' } = none :=
    faultOf_ldRegs_of_le (by rw [hi]; exact hle)
  refine ⟨_, _, exec_of_no_fault (Memory.faultOf_stRegs_of_le hle), exec_of_no_fault hload,
    fun r hr => ?_, fun r => getV_effect_ldRegs_of_lt _⟩
  rw [getV_effect_ldRegs _ hr, hi]
  exact readByte_effect_stRegs s hr

/-- Settles O21: the effect writes I and PC alone. -/
theorem loadIndexSetsI : Obligations.LoadIndexSetsI := by
  intro nnn s
  obtain ⟨hpc, hframe⟩ := effect_frame s (i := .ldI nnn) id nofun
  exact ⟨Word.wordNNN_toNat 0xA#4 nnn, _, exec_of_no_fault rfl, rfl, hpc, fun _ _ => effect_getV s id,
    effect_readByte s nofun nofun, hframe⟩

end Sys2Proof.Proofs.IndexMemory

/-! The sprite draw (43_draw.md): what `DXYN` leaves on the display and in VF, from the laws of its loops, and
what the same draw leaves when it is run again. -/

namespace Sys2Proof.Proofs.SpriteDraw

open Sys2Proof Sys2Proof.Machine Sys2Proof.Laws Sys2Proof.Proofs.Effect Sys2Proof.Proofs.IndexMemory

/-! ### Where the draw faults (R195) -/

theorem faultOf_drw_of_le {s : State} (x y : RegIdx) {n : BitVec 4} (h : s.i.toNat + n.toNat ≤ 0x1000) :
    faultOf (.drw x y n) s = none :=
  if_pos ((Ops.blockFits_iff s n.toNat).mpr h)

theorem faultOf_drw_of_gt {s : State} (x y : RegIdx) {n : BitVec 4} (h : 0x1000 < s.i.toNat + n.toNat) :
    faultOf (.drw x y n) s = some (.addressOutOfRange, outOfRangeInfo) :=
  if_neg (Bool.eq_false_iff.mp ((Ops.blockFits_false_iff s n.toNat).mpr h))

/-! ### The display and VF after one draw (R160) -/

/-- A pixel after the draw is the pixel before it XOR the sprite's image. -/
theorem pixel_effect_drw (x y : RegIdx) (n : BitVec 4) (s : State) (row : Fin 32) (col : Fin 64) :
    (effect (.drw x y n) s).disp.pixel row col = true ↔
      ¬ (s.disp.pixel row col = true ↔ SpritePixel s x y n row col) := by
  rw [← Draw.spriteCovers_iff]
  exact Draw.drawRows_disp s _ _ _ row col n.toNat n.isLt.le

/-- The draw collides where a covered pixel was on. -/
theorem drawSprite_hit (x y : RegIdx) (n : BitVec 4) (s : State) :
    (s.drawSprite x y n).hit = true ↔
      ∃ row col, s.disp.pixel row col = true ∧ SpritePixel s x y n row col := by
  rw [State.drawSprite, Draw.drawRows_hit s _ _ _ n.toNat n.isLt.le]
  simp only [Draw.spriteCovers_iff, Bool.false_eq_true, false_or]

theorem getV_vf_effect_drw (x y : RegIdx) (n : BitVec 4) (s : State) :
    (effect (.drw x y n) s).getV vfIdx = collisionFlag (s.drawSprite x y n).hit :=
  (Ops.getV_setVF _ vfIdx _).trans (if_pos rfl)

theorem vf_eq_one_of_collision {x y : RegIdx} {n : BitVec 4} {s : State}
    (h : ∃ row col, s.disp.pixel row col = true ∧ SpritePixel s x y n row col) :
    (effect (.drw x y n) s).getV vfIdx = 1#8 := by
  rw [getV_vf_effect_drw, (drawSprite_hit x y n s).mpr h]
  rfl

theorem vf_eq_zero_of_no_collision {x y : RegIdx} {n : BitVec 4} {s : State}
    (h : ¬ ∃ row col, s.disp.pixel row col = true ∧ SpritePixel s x y n row col) :
    (effect (.drw x y n) s).getV vfIdx = 0#8 := by
  rw [getV_vf_effect_drw, Bool.eq_false_iff.mpr (mt (drawSprite_hit x y n s).mp h)]
  rfl

/-- A covered pixel is on after the draw exactly when it was off before. -/
theorem pixel_effect_drw_of_covered {x y : RegIdx} {n : BitVec 4} {s : State} {row : Fin 32} {col : Fin 64}
    (h : SpritePixel s x y n row col) :
    (effect (.drw x y n) s).disp.pixel row col = true ↔ s.disp.pixel row col = false := by
  rw [pixel_effect_drw, iff_true_right h, Bool.not_eq_true]

/-! ### The same draw again (R161) -/

/-- XOR by the same image twice changes nothing. -/
theorem xor_xor_self {a p : Prop} : ¬ (¬ (a ↔ p) ↔ p) ↔ a := by
  by_cases hp : p <;> simp [hp]

section SameCoordinates

variable {x y : RegIdx} {n : BitVec 4} {s : State} (hx : (effect (.drw x y n) s).getV x = s.getV x)
  (hy : (effect (.drw x y n) s).getV y = s.getV y)

include hx hy

/-- A draw that leaves its own coordinates covers the same pixels when it is run again. -/
theorem spritePixel_effect_drw (row : Fin 32) (col : Fin 64) :
    SpritePixel (effect (.drw x y n) s) x y n row col ↔ SpritePixel s x y n row col := by
  have hi : (effect (.drw x y n) s).i = s.i := effect_i s nofun nofun
  have hmem : ∀ a, (effect (.drw x y n) s).readByte a = s.readByte a := effect_readByte s nofun nofun
  simp only [SpritePixel, hx, hy, hi, hmem]

theorem disp_effect_drw_twice : (effect (.drw x y n) (effect (.drw x y n) s)).disp = s.disp := by
  refine Ops.display_ext fun row col => Bool.eq_iff_iff.mpr ?_
  rw [pixel_effect_drw, pixel_effect_drw, spritePixel_effect_drw hx hy]
  exact xor_xor_self

/-- The second draw collides where a covered pixel was off before the first. -/
theorem second_collision_iff :
    (∃ row col, (effect (.drw x y n) s).disp.pixel row col = true ∧
      SpritePixel (effect (.drw x y n) s) x y n row col) ↔
    ∃ row col, s.disp.pixel row col = false ∧ SpritePixel s x y n row col := by
  refine exists_congr fun row => exists_congr fun col => ?_
  rw [spritePixel_effect_drw hx hy]
  exact and_congr_left pixel_effect_drw_of_covered

end SameCoordinates

/-! ### The obligations -/

/-- Settles O27: the loops XOR the sprite's image and collect the collision, or the rows do not fit. -/
theorem drawXorsSpriteImage : Obligations.DrawXorsSpriteImage := by
  intro x y n s
  refine ⟨fun hfits => ?_, fun ⟨hn, hgt⟩ => exec_halts_of_fault (faultOf_drw_of_gt x y (by omega))⟩
  have hle : s.i.toNat + n.toNat ≤ 0x1000 := by
    have := s.i.isLt
    omega
  exact ⟨_, exec_of_no_fault (faultOf_drw_of_le x y hle), pixel_effect_drw x y n s,
    vf_eq_one_of_collision, vf_eq_zero_of_no_collision, effect_pc_of_not_flow s id,
    fun _ hr => effect_getV s (mt List.mem_singleton.mpr hr), effect_readByte s nofun nofun,
    effect_i s nofun nofun, ⟨effect_stack s nofun, effect_sp s nofun nofun⟩, effect_keepsRest _ s⟩

/-- Settles O28: the second draw covers the same pixels, each the inverse of what it was. -/
theorem drawTwiceRestoresDisplay : Obligations.DrawTwiceRestoresDisplay := by
  intro x y n s t hle hexec hx hy
  obtain rfl : effect (.drw x y n) s = t :=
    Host.Outcome.next.inj ((exec_of_no_fault (faultOf_drw_of_le x y hle)).symm.trans hexec)
  have hi : (effect (.drw x y n) s).i = s.i := effect_i s nofun nofun
  have hcollision := second_collision_iff hx hy
  exact ⟨_, exec_of_no_fault (faultOf_drw_of_le x y (by rwa [hi])), disp_effect_drw_twice hx hy,
    fun hoff => vf_eq_one_of_collision (hcollision.mpr hoff),
    fun hon => vf_eq_zero_of_no_collision (mt hcollision.mp hon)⟩

/-- Refutes O29: over a display that is all on, the top row of the glyph at 0x000 turns its four pixels off,
and the same draw turns them on again without a collision. -/
theorem not_secondDrawAlwaysCollides : ¬ Obligations.SecondDrawAlwaysCollides := by
  intro h
  have hcollides := h 0 1 1#4 { State.reset with disp := Vector.replicate 32 (Vector.replicate 64 true) }
    _ _ (by decide) rfl rfl rfl rfl ⟨0, 0, 0, 0, by decide, by decide, by decide, by decide, by decide⟩
  exact absurd hcollides (by decide)

end Sys2Proof.Proofs.SpriteDraw

/-! The execution loop (50_execution_loop.md R171 to R178, R182): every cycle has a next state; a running
core's cycle halts and does nothing else, or completes an instruction and ticks once. -/

namespace Sys2Proof.Proofs.ExecutionLoop

open Sys2Proof Sys2Proof.Machine Sys2Proof.Laws Sys2Proof.Proofs.Effect Sys2Proof.Proofs.Cycle

/-! ### How a running core's cycle ends (R175, R176) -/

/-- The cycle takes a fault or a stop request, or it ticks after an instruction that left Run, the timers and
the divider alone. -/
theorem step_halts_or_ticks {s t : State} (hr : s.run = .running) (h : step s = .next t) :
    (∃ c w info, t = (takeFault c w info s).nextInputs) ∨ ∃ u, KeepsRest s u ∧ t = u.tick.nextInputs := by
  obtain ⟨r, hhalted, -⟩ | ⟨-, -, ht⟩ | ⟨-, -, -, ht⟩ | ⟨w, e, -, -, -, -, ht⟩ |
    ⟨w, i, u, -, -, -, -, he, hu⟩ := Ops.step_cases h
  · cases hr.symm.trans hhalted
  · exact .inl ⟨_, _, _, ht⟩
  · exact .inl ⟨_, _, _, ht⟩
  · exact .inl ⟨_, _, _, ht⟩
  · obtain ⟨hrun, ht⟩ | ⟨⟨r, hhalted⟩, ht⟩ := hu
    · obtain ⟨c, info, rfl⟩ | ⟨hkeep, -⟩ := Ops.exec_cases he
      · cases hrun
      · exact .inr ⟨u, hkeep, ht⟩
    · obtain ⟨c, info, rfl⟩ | ⟨⟨-, -, -, hrun, -⟩, -⟩ := Ops.exec_cases he
      · exact .inl ⟨_, _, _, ht⟩
      · cases hhalted.symm.trans (hrun.trans hr)

/-- Settles O43: the cycle that halts takes a fault or a stop request, which writes Run alone. -/
theorem haltingCycleIsPrecise : Obligations.HaltingCycleIsPrecise := by
  intro s t r hr h ht
  obtain ⟨c, w, info, rfl⟩ | ⟨u, ⟨-, -, -, hrun, -⟩, rfl⟩ := step_halts_or_ticks hr h
  · cases ht
    exact ⟨rfl, rfl⟩
  · cases ht.symm.trans (hrun.trans hr)

/-- Settles O45: the instruction leaves the tick the timers and the divider of the old state. -/
theorem completedCycleTicks : Obligations.CompletedCycleTicks := by
  intro s t hr h ht
  obtain ⟨c, w, info, rfl⟩ | ⟨u, ⟨hdt, hst, htick, -, hcfg, -⟩, rfl⟩ := step_halts_or_ticks hr h
  · cases ht
  · rw [← hdt, ← hst, ← htick, ← hcfg]
    exact ⟨Ops.tick_due u, Ops.tick_notDue u⟩

/-! ### Every cycle has a next state (R182) -/

theorem step_next_of_decoded {s : State} {w : Word} {i : Instr} (hr : s.run = .running)
    (hs : s.stopIn = false) (hf : s.fetch = some w) (hd : decodeWord w = .ok i) : ∃ t, step s = .next t := by
  rw [step_of_decoded hr hs hf hd]
  cases hu : (result i s).run with
  | running => exact ⟨_, finish_of_running (exec_eq i s) hu⟩
  | halted r => exact ⟨_, finish_of_halted (exec_eq i s) hu⟩

theorem step_next (s : State) : ∃ t, step s = .next t := by
  cases hr : s.run with
  | halted r => exact ⟨s, step_of_halted hr⟩
  | running =>
    cases hs : s.stopIn with
    | true => exact ⟨_, step_of_stop hr hs⟩
    | false =>
      cases hf : s.fetch with
      | none => exact ⟨_, step_of_no_fetch hr hs hf⟩
      | some w =>
        cases hd : decodeWord w with
        | error e => exact ⟨_, step_of_illegal hr hs hf hd⟩
        | ok i => exact step_next_of_decoded hr hs hf hd

/-- Settles O46: an instruction's next state is its `result`, halted where it faults. -/
theorem everyStepHasNextState : Obligations.EveryStepHasNextState :=
  fun s => ⟨step_next s, fun i => ⟨result i s, exec_eq i s⟩⟩

/-! ### The kinds of a cycle (R172, R173, R177, R178) -/

theorem decodeWord_of_decodeBytes {hi lo : Byte} {i : Instr} (h : decodeBytes [hi, lo] = .ok (i, [])) :
    decodeWord (wordOfBytes hi lo) = .ok i := by
  cases hd : decodeWord (wordOfBytes hi lo) with
  | error e => rw [decodeBytes, hd] at h; cases h
  | ok j => rw [decodeBytes, hd] at h; cases h; rfl

/-- Settles O37: the two bytes at PC are the fetched word, high byte first. -/
theorem stepRunsDecodedInstruction : Obligations.StepRunsDecodedInstruction := by
  intro s i hr hs hpc hd
  have htop : s.pc ≠ 0xFFF#12 := fun h => by simp [h] at hpc
  exact step_of_decoded hr hs (Memory.fetch_of_not_top htop) (decodeWord_of_decodeBytes hd)

/-- Settles O38: the first branch of the cycle. -/
theorem haltedStepChangesNothing : Obligations.HaltedStepChangesNothing := fun _ _ => step_of_halted

/-- Settles O39: `haltedWith` is the taking of the request, which comes before the fetch. -/
theorem stopRequestHalts : Obligations.StopRequestHalts := fun _ => step_of_stop

end Sys2Proof.Proofs.ExecutionLoop

/-! Exceptions (60_exceptions.md): where an instruction faults and what its halt record says, one row of the
table of R190 for each cause; and the halt of an illegal word. -/

namespace Sys2Proof.Proofs.Exceptions

open Sys2Proof Sys2Proof.Machine Sys2Proof.Laws Sys2Proof.Proofs.Effect Sys2Proof.Proofs.Cycle

/-! ### Illegal words (R191) -/

theorem decodeWord_of_illegalWord {w : Word} (h : IllegalWord w) : decodeWord w = .error (.illegal w) :=
  (Encoding.illegalWordsAreTheTable w).1.mpr h

theorem illegalWord_of_decodeWord {w : Word} {e : DecodeReject} (h : decodeWord w = .error e) :
    IllegalWord w := by
  obtain ⟨i, hi, -⟩ | ⟨-, hill⟩ := Encoding.decodeWord_accounted w
  · cases h.symm.trans hi
  · exact hill

/-- Settles O41: the decoder rejects the word, and `haltedWith` is the taking of that fault. -/
theorem illegalWordHalts : Obligations.IllegalWordHalts :=
  fun _ _ hr hs hf hill => step_of_illegal hr hs hf (decodeWord_of_illegalWord hill)

/-! ### An instruction's own fault (R192 to R195) -/

/-- A fault halts the core with the whole record and changes nothing else (R200). -/
theorem exec_of_fault {i : Instr} {s : State} {c : Cause} {info : BitVec 13}
    (h : faultOf i s = some (c, info)) : exec i s = .next (haltedWith c (encode i) info s) := by
  rw [exec_eq, result_of_fault h, takeFault, haltedWith]

/-- Settles O42: each form faults there, with its row's cause and information. -/
theorem whereInstructionsFault : Obligations.WhereInstructionsFault := fun s =>
  ⟨fun nnn hfull => Flow.exec_call_of_full nnn hfull,
    fun hempty => Flow.exec_ret_of_empty hempty,
    fun _ hgt => exec_of_fault (IndexMemory.faultOf_ldF_of_gt hgt),
    fun x hgt => exec_of_fault (IndexMemory.faultOf_ldB_of_gt x hgt),
    fun _ hgt => exec_of_fault (IndexMemory.faultOf_stRegs_of_gt hgt),
    fun _ hgt => exec_of_fault (IndexMemory.faultOf_ldRegs_of_gt hgt),
    fun x y _ _ hgt => exec_of_fault (SpriteDraw.faultOf_drw_of_gt x y (by omega))⟩

theorem blockFault_inv {s : State} {n : Nat} {c : Cause} {info : BitVec 13}
    (h : (if s.blockFits n then none else some (Cause.addressOutOfRange, outOfRangeInfo)) = some (c, info)) :
    c = .addressOutOfRange ∧ info = 0x1000#13 ∧ 0x1000 < s.i.toNat + n := by
  obtain ⟨hfits, hrow⟩ := Option.ite_none_left_eq_some.mp h
  cases hrow
  exact ⟨rfl, rfl, (Ops.blockFits_false_iff s n).mp (Bool.eq_false_iff.mpr hfits)⟩

/-- The converse of the clauses of `WhereInstructionsFault`: the instructions that fault, with the condition
and the row of R190. -/
theorem faultOf_cases {i : Instr} {s : State} {c : Cause} {info : BitVec 13}
    (h : faultOf i s = some (c, info)) :
    (c = .stackOverflow ∧ info = 16#13 ∧ s.sp.val = 16 ∧ ∃ nnn, i = .call nnn) ∨
    (c = .stackUnderflow ∧ info = 0#13 ∧ s.sp.val = 0 ∧ i = .ret) ∨
    (c = .invalidOperand ∧
      ∃ x, i = .ldF x ∧ (s.getV x).toNat > 0xF ∧ info = (s.getV x).setWidth 13) ∨
    (c = .addressOutOfRange ∧ info = 0x1000#13 ∧
      ((∃ x y n, i = .drw x y n ∧ 0x1000 < s.i.toNat + n.toNat) ∨
        (∃ x, i = .ldB x ∧ s.i.toNat + 2 > 0xFFF) ∨
        (∃ x, (i = .stRegs x ∨ i = .ldRegs x) ∧ s.i.toNat + x.val > 0xFFF))) := by
  cases i with
  | call nnn =>
    obtain ⟨hroom, hrow⟩ := Option.ite_none_left_eq_some.mp h
    cases hrow
    exact .inl ⟨rfl, rfl, by omega, nnn, rfl⟩
  | ret =>
    obtain ⟨hempty, hrow⟩ := Option.ite_none_right_eq_some.mp h
    cases hrow
    exact .inr (.inl ⟨rfl, rfl, hempty, rfl⟩)
  | ldF x =>
    obtain ⟨hgt, hrow⟩ := Option.ite_none_right_eq_some.mp h
    cases hrow
    exact .inr (.inr (.inl ⟨rfl, x, rfl, hgt, rfl⟩))
  | drw x y n =>
    obtain ⟨hc, hinfo, hgt⟩ := blockFault_inv h
    exact .inr (.inr (.inr ⟨hc, hinfo, .inl ⟨x, y, n, rfl, hgt⟩⟩))
  | ldB x =>
    obtain ⟨hc, hinfo, hgt⟩ := blockFault_inv h
    exact .inr (.inr (.inr ⟨hc, hinfo, .inr (.inl ⟨x, rfl, by omega⟩)⟩))
  | stRegs x =>
    obtain ⟨hc, hinfo, hgt⟩ := blockFault_inv h
    exact .inr (.inr (.inr ⟨hc, hinfo, .inr (.inr ⟨x, .inl rfl, by omega⟩)⟩))
  | ldRegs x =>
    obtain ⟨hc, hinfo, hgt⟩ := blockFault_inv h
    exact .inr (.inr (.inr ⟨hc, hinfo, .inr (.inr ⟨x, .inr rfl, by omega⟩)⟩))
  | _ => cases h

/-! ### The halt record (R190) -/

/-- An instruction that halts a running core took its own fault. -/
theorem exec_halted_inv {i : Instr} {s u : State} {r : HaltRecord} (hr : s.run = .running)
    (he : exec i s = .next u) (hu : u.run = .halted r) :
    ∃ c info, faultOf i s = some (c, info) ∧
      r = { cause := c, word := encode i, pc := s.pc, info := info } := by
  obtain rfl := exec_eq_next_iff.mp he
  cases hf : faultOf i s with
  | none =>
    obtain ⟨-, -, -, hrun, -⟩ := IndexMemory.effect_keepsRest i s
    rw [result_of_no_fault hf] at hu
    cases hu.symm.trans (hrun.trans hr)
  | some f =>
    rw [result_of_fault hf] at hu
    cases hu
    exact ⟨f.1, f.2, rfl, rfl⟩

theorem pc_of_no_fetch {s : State} (h : s.fetch = none) : s.pc = 0xFFF#12 := by
  by_contra hpc
  cases h.symm.trans (Memory.fetch_of_not_top hpc)

/-- Settles O44: the kinds of a cycle in the order of R198, the executed instruction's fault last. -/
theorem haltRecordIsTheTableRow : Obligations.HaltRecordIsTheTableRow := by
  intro s t r hr h ht
  obtain ⟨r', hhalted, -⟩ | ⟨-, hs, rfl⟩ | ⟨-, hs, hf, rfl⟩ | ⟨w, e, -, hs, hf, hd, rfl⟩ |
    ⟨w, i, u, -, hs, hf, hd, he, ⟨hrun, rfl⟩ | ⟨-, rfl⟩⟩ := Ops.step_cases h
  · cases hr.symm.trans hhalted
  · cases ht
    exact ⟨hs, rfl, rfl, rfl⟩
  · cases ht
    exact ⟨hs, rfl, rfl, .inl ⟨pc_of_no_fetch hf, rfl⟩⟩
  · cases ht
    exact ⟨hs, hf, illegalWord_of_decodeWord hd, rfl, rfl⟩
  · cases hrun.symm.trans ht
  · obtain ⟨c, info, hfault, rfl⟩ := exec_halted_inv hr he ht
    obtain rfl := Encoding.encode_of_decodeWord hd
    obtain ⟨rfl, rfl, hfull, nnn, rfl⟩ | ⟨rfl, rfl, hempty, rfl⟩ | ⟨rfl, x, rfl, hgt, rfl⟩ |
      ⟨rfl, rfl, hrange⟩ := faultOf_cases hfault
    · exact ⟨hs, hf, ⟨nnn, hd⟩, hfull, rfl, rfl⟩
    · exact ⟨hs, hf, hd, hempty, rfl, rfl⟩
    · exact ⟨hs, hf, ⟨x, hd, hgt, BitVec.toNat_setWidth_of_le (by decide)⟩, rfl⟩
    · refine ⟨hs, rfl, rfl, .inr ⟨hf, ?_⟩⟩
      obtain ⟨x, y, n, rfl, hgt⟩ | ⟨x, rfl, hgt⟩ | ⟨x, hi, hgt⟩ := hrange
      · have := s.i.isLt
        exact .inl ⟨x, y, n, hd, by omega, by omega⟩
      · exact .inr (.inl ⟨x, hd, hgt⟩)
      · exact .inr (.inr ⟨x, hi.imp (hd.trans <| congrArg _ ·) (hd.trans <| congrArg _ ·), hgt⟩)

end Sys2Proof.Proofs.Exceptions

/-! Reset and the launch of a ROM (70_reset_and_hazards.md): what a ROM load answers, and the image it leaves
(R231, R232). -/

namespace Sys2Proof.Proofs.RomLaunch

open Sys2Proof Sys2Proof.Machine Sys2Proof.Laws

theorem romLoad_of_le {rom : List Byte} (h : rom.length ≤ 3584) (s : State) :
    s.romLoad rom = some (s.storeBytes 0x200 rom) := if_pos h

theorem romLoad_of_gt {rom : List Byte} (h : rom.length > 3584) (s : State) : s.romLoad rom = none :=
  if_neg (Nat.not_le.mpr h)

theorem readByte_storeBytes_at (s : State) (a : Nat) (bs : List Byte) {k : Nat} (h : k < bs.length) :
    (s.storeBytes a bs).readByte (a + k) = bs[k] := by
  simp [Mem.readByte_storeBytes, h]

theorem keepsMemOutside_storeBytes (s : State) (a : Nat) (bs : List Byte) :
    KeepsMemOutside a bs.length s (s.storeBytes a bs) := by
  intro c hc
  rw [Mem.readByte_storeBytes, dif_neg (by omega)]

/-- Settles O52: the launch is a store of the image into the reset state with the inputs, whose memory
reads as that of reset. -/
theorem romLoadPlacesImage : Obligations.RomLoadPlacesImage := by
  intro cfg rom inputs
  refine ⟨fun hle => ⟨_, romLoad_of_le hle _, fun k hk => ?_, ?_, ?_⟩, fun hgt => romLoad_of_gt hgt _⟩
  · exact readByte_storeBytes_at _ _ _ hk
  · exact keepsMemOutside_storeBytes { State.resetWith cfg with inputs := inputs } _ _
  · exact Mem.storeBytes_frame _ _ _

end Sys2Proof.Proofs.RomLaunch
